-- ==== Sys2Proof/Word.lean ====
section
/-! DEFINITION. Word.lean: the widths of the ports of the block (30_encoding.md rule R47). -/

namespace Sys2Proof

/-- The 64-bit buses `a` and `y` of rule R47. -/
abbrev Word := BitVec 64

/-- The 7-bit control word `ctl` of rule R47. -/
abbrev Ctl := BitVec 7

/-- The 3-bit ports `err` and `grs` of rule R47, and the 3-bit fields of `ctl` (rule R49). -/
abbrev Code3 := BitVec 3

end Sys2Proof
end

