-- ==== Sys2Proof/Config.lean ====
section
/-! DEFINITION. Config.lean: what elaboration fixes (00_scope.md rules R6 to R10) and the one free value of the model. -/

namespace Sys2Proof

/-- The parameter `KIND` of 00_scope.md rule R10: which per-format override table applies. -/
inductive Kind where
  | ieee
  | e4m3
  | e5m2
  deriving DecidableEq, Repr

/-- The elaboration parameters of 00_scope.md rules R6 to R10. They are fixed for an instance and no request reads or
changes them (10_state.md rule R20). Which combinations are legal is `Params.legal` (rule R11). -/
structure Params where
  /-- `E`, the exponent field width in bits (rule R6). -/
  E : Nat
  /-- `M`, the stored mantissa field width in bits, the stored J bit included (rule R7). -/
  M : Nat
  /-- `EXPLICIT_J` (rule R8). -/
  explicitJ : Bool
  /-- `SUB_AS_ZERO` (rule R9). -/
  subAsZero : Bool
  /-- `KIND` (rule R10). -/
  kind : Kind
  deriving DecidableEq, Repr

/-- DESIGN CHOICE (assumption 2), safe: a FREE VALUE, applied to the `op` field and the operand word. The one legal
instance (E, M, EXPLICIT_J) = (11, 53, 1) has packed width W = 65 (10_state.md rule R25), and its operand
`v = a[W-1:0]` (30_encoding.md rule R53) names a bit `a[64]` that the 64-bit port `a` of rule R47 does not have. The
spec states no value for that bit; this constant stands for it. No instance with W at most 64 reads it. -/
opaque Config.operandBit64 : Code3 → Word → Bool

end Sys2Proof
end

