-- ==== Sys2Proof/Machine/Format.lean ====
section
/-! DEFINITION. Machine/Format.lean: legal instances, derived constants, layouts and classification of the encodings
(00_scope.md rules R11, R12, R16; 10_state.md rules R22 to R35). Packed values are handled as unsigned numbers, since
their width depends on the parameters (00_scope.md rule R13: a vector read as a number is unsigned). -/

namespace Sys2Proof

/-- `F = M - EXPLICIT_J` (00_scope.md rule R11): the fraction width. -/
def Params.F (p : Params) : Nat := p.M - (if p.explicitJ then 1 else 0)

/-- The legal combinations of 00_scope.md rule R11. -/
def Params.legal (p : Params) : Bool :=
  decide (2 ≤ p.E) && decide (p.E ≤ 11) && decide (1 ≤ p.F) && decide (p.F ≤ 52) &&
    (match p.kind with
      | .ieee => true
      | .e4m3 => decide (p.E = 4) && decide (p.M = 3) && !p.explicitJ && !p.subAsZero
      | .e5m2 => decide (p.E = 5) && decide (p.M = 2) && !p.explicitJ && !p.subAsZero)

/-- The named formats of 00_scope.md rule R12. -/
def Params.fp16 : Params := { E := 5, M := 10, explicitJ := false, subAsZero := false, kind := .ieee }
def Params.fp32 : Params := { E := 8, M := 23, explicitJ := false, subAsZero := false, kind := .ieee }
def Params.fp64 : Params := { E := 11, M := 52, explicitJ := false, subAsZero := false, kind := .ieee }
def Params.bf16 : Params := { E := 8, M := 7, explicitJ := false, subAsZero := false, kind := .ieee }
def Params.tf32 : Params := { E := 8, M := 10, explicitJ := false, subAsZero := false, kind := .ieee }
def Params.e4m3 : Params := { E := 4, M := 3, explicitJ := false, subAsZero := false, kind := .e4m3 }
def Params.e5m2 : Params := { E := 5, M := 2, explicitJ := false, subAsZero := false, kind := .e5m2 }

/-- The bias `B = 2^(E-1) - 1` (10_state.md rule R22). -/
def Params.B (p : Params) : Nat := 2 ^ (p.E - 1) - 1

/-- `maxExponent = bias` (10_state.md rule R23). -/
def Params.maxExponent (p : Params) : Int := p.B

/-- `minExponent = 1 - B` (10_state.md rule R24; conflict C1 of 90_conflicts.md). -/
def Params.minExponent (p : Params) : Int := 1 - p.B

/-- The packed width of the instance's format, `W = 1 + E + M` (10_state.md rule R25). -/
def Params.W (p : Params) : Nat := 1 + p.E + p.M

/-- The packed width of the implicit format with fraction width F, `WI = 1 + E + F` (10_state.md rule R25). -/
def Params.WI (p : Params) : Nat := 1 + p.E + p.F

/-- The all-ones exponent field `2^E - 1`. -/
def Params.eOnes (p : Params) : Nat := 2 ^ p.E - 1

/-- The trait HAS_INF of 10_state.md rule R28. -/
def Params.hasInf (p : Params) : Bool :=
  match p.kind with
  | .ieee => true
  | .e4m3 => false
  | .e5m2 => true

/-- An exact non-negative number `sig * 2^exp`. -/
structure Magnitude where
  sig : Nat
  exp : Int
  deriving DecidableEq, Repr

/-- `x` is less than `y` as numbers: both are scaled to the smaller of the two exponents. -/
def Magnitude.lt (x y : Magnitude) : Bool :=
  let low := min x.exp y.exp
  decide (x.sig * 2 ^ (x.exp - low).toNat < y.sig * 2 ^ (y.exp - low).toNat)

/-- The bounds of the row RANGE_CHECK of 10_state.md rule R28. -/
structure Bounds where
  maxValue : Magnitude
  minValue : Magnitude
  deriving DecidableEq, Repr

/-- RANGE_CHECK of 10_state.md rule R28: (448, 2^-9) for E4M3, (57344, 2^-16) for E5M2, none for IEEE. -/
def Params.rangeCheck (p : Params) : Option Bounds :=
  match p.kind with
  | .ieee => none
  | .e4m3 => some { maxValue := { sig := 448, exp := 0 }, minValue := { sig := 1, exp := -9 } }
  | .e5m2 => some { maxValue := { sig := 57344, exp := 0 }, minValue := { sig := 1, exp := -16 } }

/-- NAN_CODE(F) of 10_state.md rule R29. -/
def Params.nanCode (p : Params) : Nat :=
  match p.kind with
  | .ieee => p.eOnes * 2 ^ p.F + 1
  | .e4m3 => p.eOnes * 2 ^ p.F + (2 ^ p.F - 1)
  | .e5m2 => p.eOnes * 2 ^ p.F + 1

/-- INF_CODE(F) of 10_state.md rule R30; used only where HAS_INF = 1. -/
def Params.infCode (p : Params) : Nat := p.eOnes * 2 ^ p.F

/-- MAXF_CODE(F) of 10_state.md rule R31. -/
def Params.maxfCode (p : Params) : Nat :=
  match p.kind with
  | .ieee => p.eOnes * 2 ^ p.F - 1
  | .e4m3 => p.eOnes * 2 ^ p.F + (2 ^ p.F - 2)
  | .e5m2 => p.eOnes * 2 ^ p.F - 1

/-- The other catalog values of 10_state.md rule R32, as magnitude codes. -/
def Params.zeroCode (_p : Params) : Nat := 0
def Params.smallestSubnormalCode (_p : Params) : Nat := 1
def Params.largestSubnormalCode (p : Params) : Nat := 2 ^ p.F - 1
def Params.smallestNormalCode (p : Params) : Nat := 2 ^ p.F
def Params.largestBelowOneCode (p : Params) : Nat := p.B * 2 ^ p.F - 1
def Params.oneCode (p : Params) : Nat := p.B * 2 ^ p.F
def Params.smallestAboveOneCode (p : Params) : Nat := p.B * 2 ^ p.F + 1

namespace Machine

/-- The fields of a packed value (00_scope.md rule R16): sign, exponent field, mantissa field. In an implicit layout `m`
is the fraction `f` (10_state.md rule R26), in an explicit one the stored mantissa with its J bit (rule R27). -/
structure Enc where
  s : Bool
  e : Nat
  m : Nat
  deriving DecidableEq, Repr

/-- `v[lo+width-1:lo]` of a number (00_scope.md rule R13). -/
def slice (v lo width : Nat) : Nat := v / 2 ^ lo % 2 ^ width

/-- The split of a packed value with exponent width `ew` and mantissa width `mw` (00_scope.md rule R16). -/
def unpack (ew mw v : Nat) : Enc :=
  { s := v.testBit (ew + mw), e := slice v mw ew, m := slice v 0 mw }

/-- The packed value `{s, e, m}`, the sign at the top (00_scope.md rule R16). -/
def pack (ew mw : Nat) (x : Enc) : Nat :=
  x.s.toNat * 2 ^ (ew + mw) + x.e * 2 ^ mw + x.m

/-- The implicit encoding with sign `s` and magnitude code `c[E+F-1:0]` (10_state.md rule R26, 40_rounding.md
rule R76). -/
def Enc.ofCode (p : Params) (s : Bool) (c : Nat) : Enc :=
  { s := s, e := slice c p.F p.E, m := slice c 0 p.F }

/-- The magnitude code `e*2^F + f` of an implicit encoding (10_state.md rule R26). -/
def Enc.code (p : Params) (x : Enc) : Nat := x.e * 2 ^ p.F + x.m

/-- The classes of an implicit encoding (10_state.md rule R33). -/
inductive Class where
  | nan
  | inf
  | zero
  | subnormal
  | normal
  deriving DecidableEq, Repr

/-- The NaN row of 10_state.md rule R28. -/
def isNan (p : Params) (x : Enc) : Bool :=
  match p.kind with
  | .ieee => decide (x.e = p.eOnes) && decide (x.m ≠ 0)
  | .e4m3 => decide (x.e = p.eOnes) && decide (x.m = 2 ^ p.F - 1)
  | .e5m2 => decide (x.e = p.eOnes) && decide (x.m ≠ 0)

/-- The classification of an implicit encoding, in the order of 10_state.md rule R33. -/
def classify (p : Params) (x : Enc) : Class :=
  if isNan p x then .nan
  else if p.hasInf && decide (x.e = p.eOnes) && decide (x.m = 0) then .inf
  else if x.e = 0 then (if x.m = 0 then .zero else .subnormal)
  else .normal

/-- An encoding that counts as zero: a zero, or with SUB_AS_ZERO = 1 a subnormal (10_state.md rule R33). -/
def countsAsZero (p : Params) (x : Enc) : Bool :=
  match classify p x with
  | .zero => true
  | .subnormal => p.subAsZero
  | _ => false

/-- The classes of an explicit encoding (10_state.md rule R35). -/
inductive ExplicitClass where
  | nan
  | inf
  | zero
  | canonicalNormal
  | canonicalSubnormal
  | nonCanonical
  deriving DecidableEq, Repr

/-- The J bit `m[M-1]` of an explicit encoding (10_state.md rule R27). -/
def jBit (p : Params) (x : Enc) : Bool := x.m.testBit (p.M - 1)

/-- The classification of an explicit encoding, in the order of 10_state.md rule R35. -/
def classifyExplicit (p : Params) (x : Enc) : ExplicitClass :=
  if x.e = p.eOnes then (if x.m = 0 then .inf else .nan)
  else if x.m = 0 then .zero
  else if x.e = 0 then (if jBit p x then .nonCanonical else .canonicalSubnormal)
  else (if jBit p x then .canonicalNormal else .nonCanonical)

/-- The exact magnitude of a finite implicit encoding (10_state.md rule R34). -/
def valueImpl (p : Params) (x : Enc) : Magnitude :=
  if x.e = 0 then { sig := x.m, exp := 1 - p.B - p.F }
  else { sig := 2 ^ p.F + x.m, exp := x.e - p.B - p.F }

/-- The exact magnitude of a finite explicit encoding (10_state.md rule R36). -/
def valueExpl (p : Params) (x : Enc) : Magnitude :=
  { sig := x.m, exp := max x.e 1 - p.B - ((p.M : Int) - 1) }

end Machine
end Sys2Proof
end

