-- ==== Sys2Proof/Syntax.lean ====
section
/-! DEFINITION. Syntax.lean: the six operations of the block, one constructor per row of spec/opcode_table.json. -/

namespace Sys2Proof

/-- An operation of the block (30_encoding.md rules R50 and R57). The operand is the port `a`, so it stands in State.
The fields `rm` and `sat` of an operation that ignores them are no operand: a request that sets them "is not a different
operation" (rule R59). -/
inductive Instr where
  /-- ROUND.RNE, 40_rounding.md rule R62; `sat` is `ctl[6]` (30_encoding.md rule R52). -/
  | roundRne (sat : Bool)
  /-- ROUND.TRUNC, 40_rounding.md rule R63; `sat` is `ctl[6]` (30_encoding.md rule R52). -/
  | roundTrunc (sat : Bool)
  /-- TO_F64, 40_rounding.md rule R81. -/
  | toF64
  /-- CANON, 41_jbit_adapter.md rule R89. -/
  | canon
  /-- J_EXPAND, 41_jbit_adapter.md rule R92. -/
  | jExpand
  /-- J_DROP, 41_jbit_adapter.md rule R94. -/
  | jDrop
  deriving DecidableEq, Repr

end Sys2Proof
end

