-- ==== Sys2Proof/WellFormed.lean ====
section
/-! DEFINITION. WellFormed.lean: which operations an instance has (30_encoding.md rule R50, column "legal when"). The
typed fields of Instr leave no ill-formed operand; what can be ill-formed is the instance (00_scope.md rule R11) or the
use of an adapter operation in an implicit instance (rule R58). -/

namespace Sys2Proof

/-- The operation belongs to the explicit-J-bit adapter: CANON, J_EXPAND or J_DROP (41_jbit_adapter.md). -/
def Instr.needsExplicitJ (i : Instr) : Bool :=
  match i with
  | .roundRne _ => false
  | .roundTrunc _ => false
  | .toF64 => false
  | .canon => true
  | .jExpand => true
  | .jDrop => true

/-- The operation is legal in the instance: the instance is legal (00_scope.md rule R11), and an adapter operation needs
EXPLICIT_J = 1 (30_encoding.md rule R50). -/
def Instr.wellFormedIn (p : Params) (i : Instr) : Bool :=
  p.legal && (!i.needsExplicitJ || p.explicitJ)

end Sys2Proof
end

