-- ==== Sys2Proof/Decode.lean ====
section
/-! DEFINITION. Decode.lean: the decoder of 30_encoding.md rule R57, total on all 128 control words, the encoder of
rule R60's control words, and the reading of an opcode-table word. -/

namespace Sys2Proof

/-- Why a control word names no operation (30_encoding.md rule R58). -/
inductive Reject where
  /-- op = 101, 110 or 111: ILLEGAL_OP in every instance. -/
  | illegalOp
  /-- op = 000 with rm = 010 to 111: UNSUPPORTED_RM. -/
  | unsupportedRm
  deriving DecidableEq, Repr

/-- What the decoder answers for a control word. -/
inductive Decoded where
  | instr (i : Instr)
  | reject (r : Reject)
  deriving DecidableEq, Repr

/-- `ctl[2:0]` (30_encoding.md rule R49). -/
def opField (c : Ctl) : Code3 := c.extractLsb' 0 3

/-- `ctl[5:3]` (30_encoding.md rule R49). -/
def rmField (c : Ctl) : Code3 := c.extractLsb' 3 3

/-- `ctl[6]` (30_encoding.md rule R49). -/
def satField (c : Ctl) : Bool := c.getLsbD 6

/-- The decoding procedure of 30_encoding.md rule R57. The check EXPLICIT_J = 0 of an adapter operation is made where the
operation runs (`onExplicitInstance`), since it depends on the instance and not on the word. -/
def decode (c : Ctl) : Decoded :=
  match (opField c).toNat with
  | 0 =>
    match (rmField c).toNat with
    | 0 => .instr (.roundRne (satField c))
    | 1 => .instr (.roundTrunc (satField c))
    | _ => .reject .unsupportedRm
  | 1 => .instr .toF64
  | 2 => .instr .canon
  | 3 => .instr .jExpand
  | 4 => .instr .jDrop
  | _ => .reject .illegalOp

/-- `{sat, rm, op}`, the control word with these fields (30_encoding.md rule R49). -/
def ctlOf (sat : Bool) (rm op : Code3) : Ctl := BitVec.ofBool sat ++ rm ++ op

/-- The control word of an operation, its ignored fields 0 (30_encoding.md rules R50, R51 and R60). -/
def encode (i : Instr) : Ctl :=
  match i with
  | .roundRne sat => ctlOf sat 0 0
  | .roundTrunc sat => ctlOf sat 1 0
  | .toF64 => ctlOf false 0 1
  | .canon => ctlOf false 0 2
  | .jExpand => ctlOf false 0 3
  | .jDrop => ctlOf false 0 4

/-- The `op` field of an operation (30_encoding.md rule R50). -/
def Instr.op (i : Instr) : Code3 := opField (encode i)

/-- The operation the decoder reads from an opcode-table word. A request has one length (30_encoding.md rule R48) and its
control word 7 bits, so a number of more bits is no control word; `nbits` says nothing more. -/
def decodeTableWord (nbits w : Nat) : Option Instr :=
  if w < 2 ^ nbits ∧ w < 2 ^ 7 then
    match decode (BitVec.ofNat 7 w) with
    | .instr i => some i
    | .reject _ => none
  else none

end Sys2Proof
end

