-- ==== Sys2Proof/Machine/State.lean ====
section
/-! DEFINITION. Machine/State.lean: the quantities of the block. The spec gives it no storage (10_state.md rule R20): its
only visible quantities are the ports of 30_encoding.md rule R47, and its only configuration the elaboration parameters.
A state is one moment of the ports: the request the host
presents and the response the block drives for it (70_reset_and_hazards.md rule R112). The type admits other outputs; no
way to a state leaves them (assumption 8). -/

namespace Sys2Proof.Machine

/-- A request: one value of (ctl, a) (30_encoding.md rule R47). -/
structure Request where
  ctl : Ctl
  a : Word
  deriving DecidableEq, Repr

/-- The errors of 60_exceptions.md rule R99. -/
inductive Err where
  /-- err = 1 (rule R101). -/
  | illegalOp
  /-- err = 2 (rule R102). -/
  | unsupportedRm
  /-- err = 3 (rule R103). -/
  | infUnsupported
  /-- err = 4 (rule R104). -/
  | rangeExceeded
  deriving DecidableEq, Repr

/-- The instance and its ports. -/
structure State where
  /-- The elaboration parameters (00_scope.md rules R6 to R10); nothing writes them. -/
  params : Params
  /-- Input port `ctl[6:0]` (30_encoding.md rule R47), driven by the host. -/
  ctl : Ctl
  /-- Input port `a[63:0]` (30_encoding.md rule R47), driven by the host. -/
  a : Word
  /-- Output port `y[63:0]` (30_encoding.md rules R47 and R54). -/
  y : Word
  /-- Output port `err[2:0]` (30_encoding.md rules R47 and R55). -/
  err : Code3
  /-- Output port `grs[2:0]` (30_encoding.md rules R47 and R56). -/
  grs : Code3
  deriving DecidableEq, Repr

/-- Why a step stops with a fault. There is no such reason: "every request gets exactly one response, so the block never
hangs or stalls" (60_exceptions.md rule R98), and an error is a response (rule R100). -/
inductive Fault where
  deriving DecidableEq, Repr

/-- Why the model has no step. -/
inductive Refusal where
  /-- Raised by `exec` for an operation with no meaning; every operation has one, so no arm raises it. Safe. -/
  | notModelled (mnemonic : String)
  /-- Raised by `onInstance`, for every request, when the parameters are no legal combination: "An instance outside these
  ranges is refused at elaboration: the model has no block for it" (00_scope.md rule R11). Safe. -/
  | noInstance
  deriving DecidableEq, Repr

/-- The block right after reset. It has no reset input and nothing to reset (10_state.md rule R38,
70_reset_and_hazards.md rule R112), so each value here is the model's. DESIGN CHOICE (assumption 1): the instance is X16
of 95_test_vectors.md, which has all six operations. DESIGN CHOICE (assumption 3): the host, which drives `ctl` and `a`,
presents the all-zero request. The outputs are then what rule R112 says, the response to that request: ROUND.RNE of +0 is
y = 0, err = 0, grs = 000. -/
def State.reset : State where
  params := { E := 5, M := 11, explicitJ := true, subAsZero := false, kind := .ieee }
  ctl := 0
  a := 0
  y := 0
  err := 0
  grs := 0

end Sys2Proof.Machine
end

