-- ==== Sys2Proof/Machine/Flags.lean ====
section
/-! DEFINITION. Machine/Flags.lean: the block's only flags, the outputs `err` and `grs` (10_state.md rule R21):
the error codes and the guard, round and sticky bits. -/

namespace Sys2Proof.Machine

/-- The error code of 60_exceptions.md rule R99. -/
def Err.code (e : Err) : Code3 :=
  match e with
  | .illegalOp => 1
  | .unsupportedRm => 2
  | .infUnsupported => 3
  | .rangeExceeded => 4

/-- G of 40_rounding.md rule R64: bit `sh-1` of the significand, 0 where that position does not exist. -/
def guardBit (sig sh : Nat) : Bool := decide (1 ≤ sh) && sig.testBit (sh - 1)

/-- R of 40_rounding.md rule R64: bit `sh-2` of the significand. -/
def roundBit (sig sh : Nat) : Bool := decide (2 ≤ sh) && sig.testBit (sh - 2)

/-- S of 40_rounding.md rule R64: the OR of the bits `sh-3` down to 0. -/
def stickyBit (sig sh : Nat) : Bool := decide (3 ≤ sh) && decide (sig % 2 ^ (sh - 2) ≠ 0)

/-- `{G, R, S}` (30_encoding.md rule R56). -/
def grsBits (g r s : Bool) : Code3 := BitVec.ofBool g ++ BitVec.ofBool r ++ BitVec.ofBool s

/-- The bits `{G, R, S}` that a shift of `sig` by `sh` discards (40_rounding.md rules R70 and R78). -/
def discardedBits (sig sh : Nat) : Code3 := grsBits (guardBit sig sh) (roundBit sig sh) (stickyBit sig sh)

end Sys2Proof.Machine
end

