-- ==== Sys2Proof/Machine/Ops.lean ====
section
/-! DEFINITION. Machine/Ops.lean: the shared operations on the ports: driving a response and raising an
error (the block's only exception mechanism; there is no trap and nothing to return from, 60_exceptions.md rule R108). -/

namespace Sys2Proof.Machine

/-- `bitlen(x)` of 00_scope.md rule R14 for x > 0: the least n with x < 2^n (0 for x = 0). -/
def bitlen (x : Nat) : Nat := if x = 0 then 0 else Nat.log2 x + 1

/-- The control word the next step decodes. There is no instruction stream (20_memory.md rule R45). -/
def State.controlWord (s : State) : Ctl := s.ctl

/-- A successful response: `y`, `grs`, and err = 0 (30_encoding.md rules R54 to R56). -/
def State.respond (s : State) (y : Word) (grs : Code3) : State := { s with y := y, err := 0, grs := grs }

/-- `raise <Error>`: the error response err = code, y = 0, grs = 000, "no other effect exists" (00_scope.md rule R15,
60_exceptions.md rules R98 to R100). -/
def State.raise (s : State) (e : Err) : State := { s with y := 0, err := e.code, grs := 0 }

/-- The response an operation's result stands for: its value and `grs`, or the error it raised. -/
def State.answer (s : State) (r : Except Err (Word × Code3)) : State :=
  match r with
  | .ok (y, grs) => s.respond y grs
  | .error e => s.raise e

/-- Answer a request in a legal instance. An instance that breaks 00_scope.md rule R11 has no block, so the model has no
step for it (93_implementation_defined.md I10). -/
def onInstance (s : State) (k : Params → State) : Host.Outcome State Fault Refusal :=
  if s.params.legal then .next (k s.params) else .refused .noInstance

/-- Answer a request for an adapter operation: ILLEGAL_OP in an instance with EXPLICIT_J = 0 (30_encoding.md rules R57
and R58, 60_exceptions.md rule R101). -/
def onExplicitInstance (s : State) (k : Params → State) : Host.Outcome State Fault Refusal :=
  onInstance s fun p => if p.explicitJ then k p else s.raise .illegalOp

/-- The error a rejected control word raises (30_encoding.md rule R58). -/
def rejectError (r : Reject) : Err :=
  match r with
  | .illegalOp => .illegalOp
  | .unsupportedRm => .unsupportedRm

/-- Answer a control word that names no operation, whatever the operand (60_exceptions.md rules R101 and R102). -/
def execReject (r : Reject) (s : State) : Host.Outcome State Fault Refusal :=
  onInstance s fun _ => s.raise (rejectError r)

end Sys2Proof.Machine
end

