-- ==== Sys2Proof/Machine/Operands.lean ====
section
/-! DEFINITION. Machine/Operands.lean: operand assembly and result assembly (30_encoding.md rules R53 and R54), the
decomposition of a binary64 operand (10_state.md rule R37) and the encoding of a value as binary64. -/

namespace Sys2Proof.Machine

/-- A binary64 operand, decomposed (10_state.md rule R37). -/
inductive F64 where
  | nan
  | inf (s : Bool)
  | zero (s : Bool)
  /-- Finite and not zero: sign, and `|a| = sig * 2^q`. -/
  | finite (s : Bool) (mag : Magnitude)
  deriving DecidableEq, Repr

/-- `decode_f64` of 10_state.md rule R37: a 64-bit operand is the implicit format (11, 52) with bias 1023. -/
def decodeF64 (a : Word) : F64 :=
  let x := unpack 11 52 a.toNat
  if x.e = 2047 then (if x.m = 0 then .inf x.s else .nan)
  else if x.e = 0 then (if x.m = 0 then .zero x.s else .finite x.s { sig := x.m, exp := -1074 })
  else .finite x.s { sig := 2 ^ 52 + x.m, exp := (x.e : Int) - 1075 }

/-- The binary64 word `{s, de[10:0], df[51:0]}`. -/
def f64Word (s : Bool) (de df : Nat) : Word := BitVec.ofNat 64 (pack 11 52 { s := s, e := de, m := df })

/-- `v = a[W-1:0]`, the operand of TO_F64, CANON and J_DROP (30_encoding.md rule R53); the bits above it are ignored. For
the one legal instance with W = 65 the bit `a[64]`, which the port does not have, is a free value (assumption 2). -/
def operandW (p : Params) (op : Code3) (a : Word) : Nat :=
  if p.W ≤ 64 then slice a.toNat 0 p.W
  else a.toNat + (Config.operandBit64 op a).toNat * 2 ^ 64

/-- `v = a[WI-1:0]`, the operand of J_EXPAND (30_encoding.md rule R53). -/
def operandWI (p : Params) (a : Word) : Nat := slice a.toNat 0 p.WI

/-- The fields of an explicit operand (10_state.md rule R27). -/
def explicitFields (p : Params) (v : Nat) : Enc := unpack p.E p.M v

/-- The fields of an implicit operand (10_state.md rule R26). -/
def implicitFields (p : Params) (v : Nat) : Enc := unpack p.E p.F v

/-- `y = zext_64(r)` (30_encoding.md rule R54). DEDUCED for the one legal instance with W = 65 (assumption 4): bit i of
the port `y` is bit i of `r`, and the bit 64 of a 65-bit `r` has no wire. -/
def resultWord (r : Nat) : Word := BitVec.ofNat 64 r

/-- An explicit result, in `y[W-1:0]`. -/
def explicitWord (p : Params) (x : Enc) : Word := resultWord (pack p.E p.M x)

/-- An implicit result, in `y[WI-1:0]`. -/
def implicitWord (p : Params) (x : Enc) : Word := resultWord (pack p.E p.F x)

end Sys2Proof.Machine
end

