-- ==== Sys2Proof/Machine/Adapter.lean ====
section
/-! DEFINITION. Machine/Adapter.lean: the explicit-J-bit adapter (41_jbit_adapter.md): CANON, J_EXPAND and J_DROP. -/

namespace Sys2Proof.Machine

/-- `canon(v)` of 41_jbit_adapter.md rule R90, on the fields of an explicit value. -/
def canonForm (p : Params) (x : Enc) : Enc :=
  if x.e = p.eOnes then x
  else if x.m = 0 then { s := x.s, e := 0, m := 0 }
  else if x.e = 0 then (if jBit p x then { x with e := 1 } else x)
  else
    let lz := p.M - bitlen x.m
    let d := min lz (x.e - 1)
    let m2 := slice (x.m <<< d) 0 p.M
    { s := x.s, e := if m2.testBit (p.M - 1) then x.e - d else 0, m := m2 }

/-- `j_insert(r) = {s, e, J, f}` of 41_jbit_adapter.md rule R93: J = 1 exactly for 1 ≤ e ≤ 2^E - 2. -/
def jInsert (p : Params) (x : Enc) : Enc :=
  { s := x.s, e := x.e, m := (if 1 ≤ x.e ∧ x.e ≤ 2 ^ p.E - 2 then 2 ^ p.F else 0) + x.m }

/-- `j_drop(v)` of 41_jbit_adapter.md rule R95. -/
def jRemove (p : Params) (x : Enc) : Enc :=
  if x.e = p.eOnes then
    if x.m = 0 then { s := x.s, e := p.eOnes, m := 0 }
    else if slice x.m 0 p.F ≠ 0 then { s := x.s, e := p.eOnes, m := slice x.m 0 p.F }
    else Enc.ofCode p false p.nanCode
  else
    let c := canonForm p x
    { s := c.s, e := c.e, m := slice c.m 0 p.F }

/-- CANON (41_jbit_adapter.md rule R89): `y <- zext_64(canon(v)); grs <- 000; err <- 0`. -/
def execCanon (s : State) : Host.Outcome State Fault Refusal :=
  onExplicitInstance s fun p =>
    s.respond (explicitWord p (canonForm p (explicitFields p (operandW p Instr.canon.op s.a)))) 0

/-- J_EXPAND (41_jbit_adapter.md rule R92): `y <- zext_64(j_insert(v)); grs <- 000; err <- 0`. -/
def execJExpand (s : State) : Host.Outcome State Fault Refusal :=
  onExplicitInstance s fun p =>
    s.respond (explicitWord p (jInsert p (implicitFields p (operandWI p s.a)))) 0

/-- J_DROP (41_jbit_adapter.md rule R94): `y <- zext_64(j_drop(v)); grs <- 000; err <- 0`. -/
def execJDrop (s : State) : Host.Outcome State Fault Refusal :=
  onExplicitInstance s fun p =>
    s.respond (implicitWord p (jRemove p (explicitFields p (operandW p Instr.jDrop.op s.a)))) 0

end Sys2Proof.Machine
end

