-- ==== Sys2Proof/Machine/Rounding.lean ====
section
/-! DEFINITION. Machine/Rounding.lean: the rounding engine (40_rounding.md): ROUND.RNE, ROUND.TRUNC and TO_F64. -/

namespace Sys2Proof.Machine

/-- The two implemented rounding modes (30_encoding.md rule R51). -/
inductive RoundMode where
  | rne
  | trunc
  deriving DecidableEq, Repr

/-- `u`, the exponent of the leading one of `|a|` (40_rounding.md rule R69). -/
def leadExponent (x : Magnitude) : Int := (bitlen x.sig : Int) - 1 + x.exp

/-- `t = u + B`, the biased exponent in the target (40_rounding.md rule R69). -/
def biasedExponent (p : Params) (x : Magnitude) : Int := leadExponent x + p.B

/-- `k = max(u, 1 - B) - F`: the quantum of the result is `2^k` (40_rounding.md rule R69). -/
def quantumExponent (p : Params) (x : Magnitude) : Int := max (leadExponent x) (1 - p.B) - p.F

/-- `sh = k - q`, the number of significand bits discarded, as rule R69 of 40_rounding.md writes it. -/
def shiftInt (p : Params) (x : Magnitude) : Int := quantumExponent p x - x.exp

/-- `sh` as a shift amount; `sh >= 0` always (40_rounding.md rule R69). -/
def shiftAmount (p : Params) (x : Magnitude) : Nat := (shiftInt p x).toNat

/-- `Q`, the tentative result in quanta (40_rounding.md rule R70). -/
def tentative (p : Params) (x : Magnitude) : Nat := x.sig >>> shiftAmount p x

/-- `{G, R, S}` of a rounding (40_rounding.md rules R70 and R78). -/
def roundGrs (p : Params) (x : Magnitude) : Code3 := discardedBits x.sig (shiftAmount p x)

/-- `inc` (40_rounding.md rule R72). -/
def increment (p : Params) (mode : RoundMode) (x : Magnitude) : Bool :=
  match mode with
  | .trunc => false
  | .rne =>
    let sh := shiftAmount p x
    guardBit x.sig sh && (roundBit x.sig sh || stickyBit x.sig sh || (tentative p x).testBit 0)

/-- `c = max(t - 1, 0) * 2^F + Q + inc`, before overflow and flush (40_rounding.md rule R73). -/
def roundedCode (p : Params) (mode : RoundMode) (x : Magnitude) : Nat :=
  (max (biasedExponent p x - 1) 0).toNat * 2 ^ p.F + tentative p x + (increment p mode x).toNat

/-- Steps 5 and 6, overflow and subnormal flush (40_rounding.md rules R74 and R75). -/
def saturateFlush (p : Params) (c : Nat) : Nat :=
  if p.maxfCode < c then (if p.hasInf then p.infCode else p.maxfCode)
  else if p.subAsZero && decide (c < 2 ^ p.F) then 0
  else c

/-- The finite non-zero magnitude is outside [minValue, maxValue] of a kind that range-checks (40_rounding.md
rule R68). The comparison is on the exact value, before any rounding. -/
def outOfRange (p : Params) (x : Magnitude) : Bool :=
  match p.rangeCheck with
  | none => false
  | some b => b.maxValue.lt x || x.lt b.minValue

/-- `round_core` of 40_rounding.md rule R64: an implicit value and its `{G, R, S}`, or the error it raises. -/
def roundCore (p : Params) (mode : RoundMode) (sat : Bool) (x : F64) : Except Err (Enc × Code3) :=
  match x with
  | .nan => .ok (Enc.ofCode p false p.nanCode, 0)
  | .inf ds =>
    if p.hasInf then .ok (Enc.ofCode p ds p.infCode, 0)
    else if sat then .ok (Enc.ofCode p ds p.maxfCode, 0)
    else .error .infUnsupported
  | .zero ds => .ok (Enc.ofCode p ds 0, 0)
  | .finite ds mag =>
    if outOfRange p mag then .error .rangeExceeded
    else .ok (Enc.ofCode p ds (saturateFlush p (roundedCode p mode mag)), roundGrs p mag)

/-- The W-bit result of ROUND: `r` itself, or with its J bit inserted in an explicit instance (40_rounding.md
rules R62, R63 and R77). -/
def formatWord (p : Params) (r : Enc) : Word :=
  if p.explicitJ then explicitWord p (jInsert p r) else implicitWord p r

/-- The response of ROUND under a mode (40_rounding.md rules R62 and R63). -/
def roundAnswer (p : Params) (mode : RoundMode) (sat : Bool) (a : Word) : Except Err (Word × Code3) :=
  match roundCore p mode sat (decodeF64 a) with
  | .ok (r, grs) => .ok (formatWord p r, grs)
  | .error e => .error e

/-- `f64_encode(value_impl(s, e, f))` by the bit-level construction of 40_rounding.md rule R83. -/
def f64Encode (p : Params) (x : Enc) : Word :=
  if x.e ≠ 0 then f64Word x.s (x.e + 1023 - p.B) (x.m <<< (52 - p.F))
  else if x.m = 0 then f64Word x.s 0 0
  else
    let n := bitlen x.m - 1
    let lead : Int := (n : Int) + 1 - p.B - p.F
    if -1022 ≤ lead then f64Word x.s (lead + 1023).toNat ((x.m - 2 ^ n) <<< (52 - n))
    else f64Word x.s 0 (x.m <<< (1075 - p.B - p.F))

/-- The case distinction of TO_F64 on an implicit value (40_rounding.md rules R81 to R86). -/
def toF64Word (p : Params) (x : Enc) : Word :=
  match classify p x with
  | .nan => f64Word false 0x7FF 1
  | .inf => f64Word x.s 0x7FF 0
  | .subnormal => if p.subAsZero then f64Word x.s 0 0 else f64Encode p x
  | .zero => f64Encode p x
  | .normal => f64Encode p x

/-- The implicit value TO_F64 converts: in an explicit instance the operand after J_DROP (40_rounding.md
rules R81 and R87). -/
def toF64Source (p : Params) (v : Nat) : Enc :=
  if p.explicitJ then jRemove p (explicitFields p v) else implicitFields p v

/-- ROUND.RNE (40_rounding.md rule R62). -/
def execRoundRne (sat : Bool) (s : State) : Host.Outcome State Fault Refusal :=
  onInstance s fun p => s.answer (roundAnswer p .rne sat s.a)

/-- ROUND.TRUNC (40_rounding.md rule R63). -/
def execRoundTrunc (sat : Bool) (s : State) : Host.Outcome State Fault Refusal :=
  onInstance s fun p => s.answer (roundAnswer p .trunc sat s.a)

/-- TO_F64 (40_rounding.md rule R81): grs = 000, err = 0, no error. -/
def execToF64 (s : State) : Host.Outcome State Fault Refusal :=
  onInstance s fun p => s.respond (toF64Word p (toF64Source p (operandW p Instr.toF64.op s.a))) 0

end Sys2Proof.Machine
end

