-- ==== Sys2Proof/Machine/Dispatch.lean ====
section
/-! DEFINITION. Machine/Dispatch.lean: the meaning of each operation, one arm per constructor of Instr. -/

namespace Sys2Proof.Machine

def exec (i : Instr) (s : State) : Host.Outcome State Fault Refusal :=
  match i with
  | .roundRne sat => Sys2Proof.Machine.execRoundRne sat s
  | .roundTrunc sat => Sys2Proof.Machine.execRoundTrunc sat s
  | .toF64 => Sys2Proof.Machine.execToF64 s
  | .canon => Sys2Proof.Machine.execCanon s
  | .jExpand => Sys2Proof.Machine.execJExpand s
  | .jDrop => Sys2Proof.Machine.execJDrop s

end Sys2Proof.Machine
end

