-- ==== Sys2Proof/Machine/Ports.lean ====
section
/-! DEFINITION. Machine/Ports.lean: the block between its ports. The response is at every instant the function of the
request (70_reset_and_hazards.md rule R112), so whatever changes the request drives the outputs anew. -/

namespace Sys2Proof.Machine

/-- The answer to the request on the ports: the decoding procedure of 30_encoding.md rule R57. -/
def answerRequest (s : State) : Host.Outcome State Fault Refusal :=
  match decode s.controlWord with
  | .instr i => exec i s
  | .reject r => execReject r s

/-- The outputs follow the request on the ports (70_reset_and_hazards.md rule R112). Parameters that are no legal
combination have no block to drive them. -/
def State.settle (s : State) : State :=
  match answerRequest s with
  | .next t => { s with y := t.y, err := t.err, grs := t.grs }
  | .fault _ => s
  | .refused _ => s

/-- The host presents a whole request (70_reset_and_hazards.md rule R114), and the outputs are its response. -/
def State.present (s : State) (rq : Request) : State := { s with ctl := rq.ctl, a := rq.a }.settle

end Sys2Proof.Machine
end

