-- ==== Sys2Proof/Machine/Step.lean ====
section
/-! DEFINITION. Machine/Step.lean: one step answers the request on the ports (30_encoding.md rule R57). -/

namespace Sys2Proof.Machine

/-- One step: the block answers the request it is presented, and the host samples the response (30_encoding.md rules R47
and R57). The request stays on the ports until the host presents another (70_reset_and_hazards.md rule R114). -/
def step (s : State) : Host.Outcome State Fault Refusal := answerRequest s

/-- The state whose next step runs the opcode-table word: the host puts it on `ctl`, and the outputs follow at once
(70_reset_and_hazards.md rule R112). There is no program counter and no instruction stream (10_state.md rule R20,
20_memory.md rule R45); assumption 5 says how requests come to the block. -/
def State.withFetchWord (s : State) (nbits w : Nat) : State :=
  { s with ctl := BitVec.ofNat 7 (w % 2 ^ nbits) }.settle

end Sys2Proof.Machine
end

