-- ==== Sys2Proof/Machine/Assembler.lean ====
section
/-! DEFINITION. Machine/Assembler.lean: the textual form of a request and of a response (30_encoding.md rules R60
and R61), over lists of characters. -/

namespace Sys2Proof.Machine

/-- A word of the line is finished: add it to the words after it. -/
def flushWord (w : List Char) (ws : List (List Char)) : List (List Char) := if w = [] then ws else w :: ws

/-- One character of a line: a space ends a word, a comma is a word of its own. -/
def scanChar (c : Char) (acc : List Char × List (List Char)) : List Char × List (List Char) :=
  if c = ' ' then ([], flushWord acc.1 acc.2)
  else if c = ',' then ([], [','] :: flushWord acc.1 acc.2)
  else (c :: acc.1, acc.2)

/-- The words of a line. -/
def lineWords (line : List Char) : List (List Char) :=
  let r := line.foldr scanChar ([], [])
  flushWord r.1 r.2

/-- The value of a digit in the base. PRESUMED (assumption 6): both letter cases are hexadecimal digits. -/
def digitValue (base : Nat) (c : Char) : Option Nat :=
  let n := c.toNat
  let v := if 48 ≤ n ∧ n ≤ 57 then n - 48 else if 65 ≤ n ∧ n ≤ 70 then n - 55 else if 97 ≤ n ∧ n ≤ 102 then n - 87 else base
  if v < base then some v else none

/-- The number that `acc` followed by the digits writes. -/
def digitsFrom (base : Nat) (acc : Nat) (ds : List Char) : Option Nat :=
  match ds with
  | [] => some acc
  | d :: rest =>
    match digitValue base d with
    | some v => digitsFrom base (acc * base + v) rest
    | none => none

/-- The number that one or more digits write. -/
def digitsNumber (base : Nat) (ds : List Char) : Option Nat := if ds = [] then none else digitsFrom base 0 ds

/-- A hexadecimal literal `0x...` below `2^bits`, zero-extended (30_encoding.md rule R60). -/
def hexLiteral (bits : Nat) (w : List Char) : Option Nat :=
  match w with
  | '0' :: 'x' :: ds => (digitsNumber 16 ds).filter (fun n => decide (n < 2 ^ bits))
  | _ => none

/-- The binary64 word of exactly `n / 10^scale`, where there is one (30_encoding.md rule R60). `u` is the number in
units of 2^-1074, of which every finite binary64 value is a multiple (10_state.md rule R37). -/
def exactF64 (s : Bool) (n scale : Nat) : Option Word :=
  let u := n * 2 ^ 1074 / 10 ^ scale
  let len := bitlen u
  if u * 10 ^ scale ≠ n * 2 ^ 1074 then none
  else if len ≤ 52 then some (f64Word s 0 u)
  else if len - 52 ≤ 2046 ∧ u % 2 ^ (len - 53) = 0 then some (f64Word s (len - 52) (u / 2 ^ (len - 53) - 2 ^ 52))
  else none

/-- A decimal literal such as `1.0` or `-0.0`: digits, a point, digits, a minus sign perhaps before them
(30_encoding.md rule R60). -/
def decimalLiteral (w : List Char) : Option Word :=
  let s := w.head? == some '-'
  let body := if s then w.tail else w
  let whole := body.takeWhile (· ≠ '.')
  match body.drop whole.length with
  | '.' :: frac =>
    match digitsNumber 10 whole, digitsNumber 10 frac, digitsNumber 10 (whole ++ frac) with
    | some _, some _, some n => exactF64 s n frac.length
    | _, _, _ => none
  | _ => none

/-- The operation names of 30_encoding.md rule R60, and the pseudo-instruction `round` of rule R61. -/
def mnemonicInstr (w : List Char) : Option Instr :=
  if w = "round.rne".toList then some (.roundRne false)
  else if w = "round.rne.sat".toList then some (.roundRne true)
  else if w = "round.trunc".toList then some (.roundTrunc false)
  else if w = "round.trunc.sat".toList then some (.roundTrunc true)
  else if w = "to_f64".toList then some .toF64
  else if w = "canon".toList then some .canon
  else if w = "j_expand".toList then some .jExpand
  else if w = "j_drop".toList then some .jDrop
  else if w = "round".toList then some (.roundRne false)
  else none

/-- The operand of an operation: a hexadecimal literal, or for `round.*` a decimal one (30_encoding.md rule R60). -/
def operandLiteral (i : Instr) (w : List Char) : Option Word :=
  match hexLiteral 64 w with
  | some n => some (BitVec.ofNat 64 n)
  | none => if i.op = 0 then decimalLiteral w else none

/-- The request a line stands for, where it is one of 30_encoding.md rule R60's forms or `round` of rule R61. -/
def assemble (line : List Char) : Option Request :=
  match lineWords line with
  | [name, operand] =>
    match mnemonicInstr name with
    | some i => (operandLiteral i operand).map fun a => { ctl := encode i, a := a }
    | none => none
  | [name, ctl, [','], operand] =>
    match hexLiteral 7 ctl, hexLiteral 64 operand with
    | some c, some a => if name = ".req".toList then some { ctl := BitVec.ofNat 7 c, a := BitVec.ofNat 64 a } else none
    | _, _ => none
  | _ => none

/-- The hexadecimal digit of `n % 16`, in capitals as 95_test_vectors.md writes them. -/
def hexDigit (n : Nat) : Char := Char.ofNat (if n % 16 < 10 then 48 + n % 16 else 55 + n % 16)

/-- The last `width` hexadecimal digits of `n`. -/
def hexDigits (width n : Nat) : List Char :=
  match width with
  | 0 => []
  | k + 1 => hexDigits k (n / 16) ++ [hexDigit n]

/-- The raw form `.req <ctl7>, <a64>` of a request (30_encoding.md rule R60). -/
def requestText (rq : Request) : List Char :=
  ".req 0x".toList ++ hexDigits 2 rq.ctl.toNat ++ ", 0x".toList ++ hexDigits 16 rq.a.toNat

/-- The operation's name in 30_encoding.md rule R60. -/
def instrName (i : Instr) : List Char :=
  match i with
  | .roundRne false => "round.rne".toList
  | .roundRne true => "round.rne.sat".toList
  | .roundTrunc false => "round.trunc".toList
  | .roundTrunc true => "round.trunc.sat".toList
  | .toF64 => "to_f64".toList
  | .canon => "canon".toList
  | .jExpand => "j_expand".toList
  | .jDrop => "j_drop".toList

/-- The line of an operation with a hexadecimal operand (30_encoding.md rule R60). -/
def instrText (i : Instr) (a : Word) : List Char := instrName i ++ " 0x".toList ++ hexDigits 16 a.toNat

/-- The hexadecimal digits of a number below 2^64, no leading zero but for 0 itself. -/
def shortHex (n : Nat) : List Char :=
  let ds := (hexDigits 16 n).dropWhile (· = '0')
  if ds = [] then ['0'] else ds

/-- The written response `-> y=<hex> err=<0..4> grs=<3 bits>` (30_encoding.md rule R60). -/
def responseText (s : State) : List Char :=
  "-> y=0x".toList ++ shortHex s.y.toNat ++ " err=".toList ++ hexDigits 1 s.err.toNat ++ " grs=".toList ++
    [hexDigit s.grs[2].toNat, hexDigit s.grs[1].toNat, hexDigit s.grs[0].toNat]

end Sys2Proof.Machine
end

