-- ==== Sys2Proof/Safety.lean ====
section
/-! DEFINITION. Safety.lean: the terms claims are stated in: the exact value of an encoding as a rational
(10_state.md rules R34, R36 and R37), the representable values, and what the ports of a conforming block show. -/

namespace Sys2Proof

open Machine

/-- The exact rational `sig * 2^exp`. -/
def Magnitude.val (x : Magnitude) : ℚ := (x.sig : ℚ) * 2 ^ x.exp

/-- The fields are in range for exponent width `ew` and mantissa width `mw`. -/
def Machine.Enc.Fits (ew mw : Nat) (x : Enc) : Prop := x.e < 2 ^ ew ∧ x.m < 2 ^ mw

/-- The magnitude of the implicit encoding with magnitude code `c` (10_state.md rules R26 and R34). -/
def codeVal (p : Params) (c : Nat) : ℚ := (valueImpl p (Enc.ofCode p false c)).val

/-- The sign bit `a[63]` of a binary64 word (10_state.md rule R37). -/
def f64Sign (a : Word) : Bool := a.getLsbD 63

/-- The exponent field `a[62:52]` (10_state.md rule R37). -/
def f64Exp (a : Word) : Nat := (a.extractLsb' 52 11).toNat

/-- The fraction `a[51:0]` (10_state.md rule R37). -/
def f64Frac (a : Word) : Nat := (a.extractLsb' 0 52).toNat

/-- The classes of a binary64 word (10_state.md rule R37). -/
abbrev F64IsNan (a : Word) : Prop := f64Exp a = 2047 ∧ f64Frac a ≠ 0
abbrev F64IsInf (a : Word) : Prop := f64Exp a = 2047 ∧ f64Frac a = 0
abbrev F64IsZero (a : Word) : Prop := f64Exp a = 0 ∧ f64Frac a = 0
abbrev F64IsFiniteNonzero (a : Word) : Prop := f64Exp a ≠ 2047 ∧ ¬ F64IsZero a

/-- The magnitude `|a|` of a finite binary64 word (10_state.md rule R37). -/
def f64Abs (a : Word) : ℚ :=
  if f64Exp a = 0 then (f64Frac a : ℚ) * 2 ^ (-1074 : ℤ)
  else ((2 ^ 52 + f64Frac a : ℕ) : ℚ) * 2 ^ ((f64Exp a : ℤ) - 1075)

/-- A magnitude the kind's range check accepts (10_state.md rule R28, 40_rounding.md rule R68). -/
def InRange (p : Params) (v : ℚ) : Prop :=
  match p.kind with
  | .ieee => True
  | .e4m3 => 1 / 2 ^ 9 ≤ v ∧ v ≤ 448
  | .e5m2 => 1 / 2 ^ 16 ≤ v ∧ v ≤ 57344

/-- An operand that ROUND rounds: finite, not zero, and accepted by the range check. -/
def Rounds (p : Params) (a : Word) : Prop := F64IsFiniteNonzero a ∧ InRange p (f64Abs a)

/-- `ROUND.<mode>` as an operation. -/
def roundInstr (mode : RoundMode) (sat : Bool) : Instr :=
  match mode with
  | .rne => .roundRne sat
  | .trunc => .roundTrunc sat

/-- An explicit encoding is canonical: its J bit is 1 when its exponent field is not zero and 0 when it is
(00_scope.md rule R19). -/
def CanonicalJ (p : Params) (x : Enc) : Prop := jBit p x = true ↔ x.e ≠ 0

/-- The request raises ILLEGAL_OP (60_exceptions.md rule R101). -/
def RaisesIllegalOp (p : Params) (c : Ctl) : Prop :=
  opField c = 5 ∨ opField c = 6 ∨ opField c = 7 ∨
    (p.explicitJ = false ∧ (opField c = 2 ∨ opField c = 3 ∨ opField c = 4))

/-- The request raises UNSUPPORTED_RM (60_exceptions.md rule R102). -/
def RaisesUnsupportedRm (c : Ctl) : Prop := opField c = 0 ∧ rmField c ≠ 0 ∧ rmField c ≠ 1

/-- The request asks for an implemented rounding. -/
def AsksRound (c : Ctl) : Prop := opField c = 0 ∧ (rmField c = 0 ∨ rmField c = 1)

/-- The width of the result of a request (30_encoding.md rule R54). -/
def resultWidth (p : Params) (c : Ctl) : Nat :=
  if opField c = 1 then 64 else if opField c = 4 then p.WI else p.W

/-- The outputs are the response to the request on the ports (70_reset_and_hazards.md rule R112): answering it again
changes nothing. -/
def Settled (s : State) : Prop := step s = .next s

/-- What the ports of a block show at every moment, whatever the request (a safe run is one whose states all satisfy it):
the instance is legal; the outputs are the response to the request (70_reset_and_hazards.md rule R112); `err` is a code of 60_exceptions.md rule R99 that its kind can raise; an error comes with no
result (rule R100); `grs` is ROUND's alone (30_encoding.md rule R56); `y` is zero above the result width (rule R54); a
result in the explicit format is canonical unless its exponent field is all ones (40_rounding.md rule R77,
41_jbit_adapter.md rules R90 and R93); a flushing instance rounds to no subnormal (40_rounding.md rule R75); and
TO_F64 gives no NaN but one (40_rounding.md rule R84). -/
structure PortsConform (s : State) : Prop where
  legal : s.params.legal = true
  settled : Settled s
  errCode : s.err.toNat ≤ 4
  errOfKind : (s.err = 3 → s.params.kind = .e4m3) ∧ (s.err = 4 → s.params.kind ≠ .ieee)
  errNoResult : s.err ≠ 0 → s.y = 0 ∧ s.grs = 0
  grsOfRound : opField s.ctl ≠ 0 → s.grs = 0
  resultWidth : s.y.toNat < 2 ^ resultWidth s.params s.ctl
  canonical : s.params.explicitJ = true → opField s.ctl ≠ 1 → opField s.ctl ≠ 4 →
    (explicitFields s.params s.y.toNat).e ≠ s.params.eOnes → CanonicalJ s.params (explicitFields s.params s.y.toNat)
  flushed : s.params.subAsZero = true → opField s.ctl = 0 →
    (unpack s.params.E s.params.M s.y.toNat).e = 0 → (unpack s.params.E s.params.M s.y.toNat).m = 0
  oneNan : opField s.ctl = 1 → F64IsNan s.y → s.y = 0x7FF0000000000001

end Sys2Proof
end

