-- ==== Sys2Proof/Certificates/Slice0/Obligations.lean ====
section
/-! DEFINITION. Certificates/Slice0/Obligations.lean: the statements about the model, from the numbered rules of spec/. -/

open Sys2Proof Sys2Proof.Machine

/-! ## Encoding and decoding -/

/-- 30_encoding.md section 4, the control words of rule R60, and reserved words of rule R58. -/
def Obligations.DecodeReadsTheSpecWords : Prop :=
  decode 0b0000000#7 = .instr (.roundRne false) ∧ decode 0b1000000#7 = .instr (.roundRne true) ∧
  decode 0b0001000#7 = .instr (.roundTrunc false) ∧ decode 0b1001000#7 = .instr (.roundTrunc true) ∧
  decode 0b0000001#7 = .instr .toF64 ∧ decode 0b0000010#7 = .instr .canon ∧
  decode 0b0000011#7 = .instr .jExpand ∧ decode 0b0000100#7 = .instr .jDrop ∧
  decode 0b0000101#7 = .reject .illegalOp ∧ decode 0b0010000#7 = .reject .unsupportedRm

/-- 30_encoding.md sections 1 and 3: the decoder gives back every encoded operation. -/
def Obligations.DecodeInvertsEncode : Prop := ∀ i : Instr, decode (encode i) = .instr i

/-- 30_encoding.md section 4: a written operation, and a written raw request, assembles to the request it stands for. That
the assembler reads these characters so (spacing, capitals, leading zeros) is the model's grammar (assumption 6,
PRESUMED). -/
def Obligations.RequestTextReadsBack : Prop :=
  (∀ (i : Instr) (a : Word), ∃ rq, assemble (instrText i a) = some rq ∧ decode rq.ctl = .instr i ∧ rq.a = a) ∧
  ∀ rq : Request, assemble (requestText rq) = some rq

/-- 30_encoding.md section 3: a step runs the operation that the control word decodes to, and answers a control word that
names none by its error. -/
def Obligations.StepRunsTheDecodedOperation : Prop :=
  ∀ s : State,
    (∀ i, decode s.ctl = .instr i → step s = exec i s) ∧
    (∀ r, decode s.ctl = .reject r → s.params.legal = true → step s = .next (s.raise (rejectError r)))

/-- 30_encoding.md rule R59: the fields an operation does not read are don't-care. -/
def Obligations.UnreadFieldsAreDontCare : Prop :=
  ∀ (s : State) (c : Ctl), s.params.legal = true → opField c = opField s.ctl →
    (opField s.ctl ≠ 0 ∨ (rmField c = rmField s.ctl ∧ s.params.hasInf = true)) →
    ∃ t t', step s = .next t ∧ step { s with ctl := c } = .next t' ∧ t'.y = t.y ∧ t'.err = t.err ∧ t'.grs = t.grs

/-- 30_encoding.md section 2: operand bits above the operand width do not change the response. -/
def Obligations.OperandBitsAboveTheWidthAreIgnored : Prop :=
  ∀ (s : State) (a : Word), s.params.legal = true → opField s.ctl ≠ 0 →
    slice a.toNat 0 (if opField s.ctl = 3 then s.params.WI else s.params.W) =
      slice s.a.toNat 0 (if opField s.ctl = 3 then s.params.WI else s.params.W) →
    ∃ t t', step s = .next t ∧ step { s with a := a } = .next t' ∧ t'.y = t.y ∧ t'.err = t.err ∧ t'.grs = t.grs

/-! ## Errors -/

/-- 60_exceptions.md rule R101 with the response of rule R100. -/
def Obligations.IllegalOpIsRaised : Prop :=
  ∀ s : State, s.params.legal = true → RaisesIllegalOp s.params s.ctl →
    step s = .next { s with y := 0, err := 1, grs := 0 }

/-- 60_exceptions.md rule R102: whatever the operand. -/
def Obligations.UnsupportedModeIsRaised : Prop :=
  ∀ s : State, s.params.legal = true → RaisesUnsupportedRm s.ctl →
    step s = .next { s with y := 0, err := 2, grs := 0 }

/-- 60_exceptions.md rules R99, R103 and R104: each error code is driven exactly by its cause, and no other code. -/
def Obligations.ErrorCodeHasItsCause : Prop :=
  ∀ s : State, s.params.legal = true → ∃ t, step s = .next t ∧
    (t.err = 1 ↔ RaisesIllegalOp s.params s.ctl) ∧
    (t.err = 2 ↔ RaisesUnsupportedRm s.ctl) ∧
    (t.err = 3 ↔ AsksRound s.ctl ∧ F64IsInf s.a ∧ s.params.kind = .e4m3 ∧ satField s.ctl = false) ∧
    (t.err = 4 ↔ AsksRound s.ctl ∧ F64IsFiniteNonzero s.a ∧ ¬ InRange s.params (f64Abs s.a)) ∧
    t.err ≠ 5 ∧ t.err ≠ 6 ∧ t.err ≠ 7

/-- 60_exceptions.md rule R100. -/
def Obligations.ErrorResponseCarriesNoResult : Prop :=
  ∀ s t : State, step s = .next t → t.err ≠ 0 → t.y = 0 ∧ t.grs = 0

/-- 60_exceptions.md section 1: every request of a legal instance gets a response. -/
def Obligations.EveryRequestIsAnswered : Prop :=
  ∀ s : State, s.params.legal = true → ∃ t, step s = .next t

/-- 00_scope.md section 3, with 30_encoding.md section 3: an instance in the ranges answers every request, and one outside
them has no block. That this shows as the refusal noInstance at every step, where the spec refuses at elaboration, is the
model's reading (assumption 10, DEDUCED). -/
def Obligations.InstanceOutsideTheRangesIsRefused : Prop :=
  ∀ s : State,
    (2 ≤ s.params.E ∧ s.params.E ≤ 11 ∧
        1 ≤ s.params.M - s.params.explicitJ.toNat ∧ s.params.M - s.params.explicitJ.toNat ≤ 52 ∧
        (s.params.kind = .e4m3 →
          s.params.E = 4 ∧ s.params.M = 3 ∧ s.params.explicitJ = false ∧ s.params.subAsZero = false) ∧
        (s.params.kind = .e5m2 →
          s.params.E = 5 ∧ s.params.M = 2 ∧ s.params.explicitJ = false ∧ s.params.subAsZero = false) →
      ∃ t, step s = .next t) ∧
    (¬ (2 ≤ s.params.E ∧ s.params.E ≤ 11 ∧
        1 ≤ s.params.M - s.params.explicitJ.toNat ∧ s.params.M - s.params.explicitJ.toNat ≤ 52 ∧
        (s.params.kind = .e4m3 →
          s.params.E = 4 ∧ s.params.M = 3 ∧ s.params.explicitJ = false ∧ s.params.subAsZero = false) ∧
        (s.params.kind = .e5m2 →
          s.params.E = 5 ∧ s.params.M = 2 ∧ s.params.explicitJ = false ∧ s.params.subAsZero = false)) →
      step s = .refused .noInstance)

/-! ## State, history and reset -/

/-- 10_state.md section 1: no operation changes the parameters or the request; only the three outputs are written. -/
def Obligations.OperationsWriteOnlyTheOutputs : Prop :=
  (∀ (i : Instr) (s t : State), exec i s = .next t → t = { s with y := t.y, err := t.err, grs := t.grs }) ∧
  ∀ s t : State, step s = .next t → t = { s with y := t.y, err := t.err, grs := t.grs }

/-- 70_reset_and_hazards.md rule R117: no response depends on history. -/
def Obligations.ResponseDependsOnTheRequestAlone : Prop :=
  ∀ s s' : State, s'.params = s.params → s'.ctl = s.ctl → s'.a = s.a → step s' = step s

/-- 60_exceptions.md section 1 and 70_reset_and_hazards.md section 2: after any request, an error too, the next one is
answered as if it had come first, and the ports show its response at once. -/
def Obligations.RequestsDoNotInteract : Prop :=
  ∀ (s t : State) (rq : Request), step s = .next t →
    t.present rq = s.present rq ∧ step (t.present rq) = step (s.present rq)

/-- 20_memory.md (with rule R42): the same request answered twice gives the same response. -/
def Obligations.AnsweringIsIdempotent : Prop := ∀ s t : State, step s = .next t → step t = .next t

/-- 70_reset_and_hazards.md section 1: right after reset the outputs are the response to the request on the ports. That
this request is all zeros is the model's choice (assumption 3). -/
def Obligations.ResetAnswersItsRequest : Prop := step State.reset = .next State.reset

/-- The invariant holds at reset; the instance and the request at reset are the model's choices (assumptions 1 and 3). -/
def Obligations.ResetPortsConform : Prop := PortsConform State.reset

/-- 30_encoding.md section 2, 60_exceptions.md section 1, 70_reset_and_hazards.md section 1: every step, and every way the
host changes the request, leads to ports that conform. No more is asked of the state before than that its instance is
legal, so the invariant is kept along every sequence of presented requests and steps. -/
def Obligations.StepKeepsPortsConforming : Prop :=
  ∀ s : State, s.params.legal = true →
    (∀ t, step s = .next t → PortsConform t) ∧
    (∀ rq, PortsConform (s.present rq)) ∧
    ∀ nbits w, PortsConform (s.withFetchWord nbits w)

/-- 70_reset_and_hazards.md section 1 (rule R112): as soon as the host presents a request, the outputs are its response:
those of the step that answers it, whatever the ports showed before. -/
def Obligations.OutputsFollowTheRequestAtOnce : Prop :=
  ∀ (s : State) (rq : Request), s.params.legal = true →
    ∃ t, step { s with ctl := rq.ctl, a := rq.a } = .next t ∧ s.present rq = t ∧ Settled t ∧
      t.params = s.params ∧ t.ctl = rq.ctl ∧ t.a = rq.a

/-! ## Values of the encodings -/

/-- 10_state.md rule R37: the decomposition of a binary64 operand. -/
def Obligations.OperandIsDecomposed : Prop :=
  ∀ a : Word,
    (F64IsNan a → decodeF64 a = .nan) ∧
    (F64IsInf a → decodeF64 a = .inf (f64Sign a)) ∧
    (F64IsZero a → decodeF64 a = .zero (f64Sign a)) ∧
    (F64IsFiniteNonzero a → ∃ x : Magnitude, decodeF64 a = .finite (f64Sign a) x ∧
      x.val = f64Abs a ∧
      (1 ≤ f64Exp a → x.sig = 2 ^ 52 + f64Frac a ∧ x.exp = (f64Exp a : ℤ) - 1075) ∧
      (f64Exp a = 0 → x.sig = f64Frac a ∧ x.exp = -1074))

/-- 10_state.md section 4: a greater finite magnitude code is a greater magnitude. -/
def Obligations.MagnitudeCodesOrderTheValues : Prop :=
  ∀ (p : Params) (c c' : Nat), p.legal = true → c < c' → c' ≤ p.maxfCode → codeVal p c < codeVal p c'

/-- 10_state.md sections 2 and 3: the values of the catalog codes and the largest finite value of each kind. -/
def Obligations.CatalogCodesHaveTheirValues : Prop :=
  ∀ p : Params, p.legal = true →
    codeVal p p.zeroCode = 0 ∧
    codeVal p p.smallestSubnormalCode = 2 ^ (1 - (p.B : ℤ) - p.F) ∧
    codeVal p p.smallestNormalCode = 2 ^ (1 - (p.B : ℤ)) ∧
    codeVal p p.largestSubnormalCode = (2 ^ p.F - 1) * 2 ^ (1 - (p.B : ℤ) - p.F) ∧
    codeVal p p.oneCode = 1 ∧
    codeVal p p.smallestAboveOneCode = 1 + 1 / 2 ^ p.F ∧
    (3 ≤ p.E → codeVal p p.largestBelowOneCode = 1 - 1 / 2 ^ (p.F + 1)) ∧
    (p.kind = .ieee → codeVal p p.maxfCode = (2 - 1 / 2 ^ p.F) * 2 ^ p.B) ∧
    (p.kind = .e4m3 → codeVal p p.maxfCode = 448 ∧ codeVal p p.smallestSubnormalCode = 1 / 2 ^ 9) ∧
    (p.kind = .e5m2 → codeVal p p.maxfCode = 57344 ∧ codeVal p p.smallestSubnormalCode = 1 / 2 ^ 16)

/-- 10_state.md sections 3 and 4: the finite encodings are those up to the largest finite code; for E4M3 they take in
codes with an all-ones exponent. -/
def Obligations.FiniteEncodingsEndAtTheLargestCode : Prop :=
  ∀ (p : Params) (x : Enc), p.legal = true → x.Fits p.E p.F →
    ((classify p x ≠ .nan ∧ classify p x ≠ .inf) ↔ x.code p ≤ p.maxfCode)

/-- 10_state.md rule R36: the value of an explicit encoding, and the implicit encodings that have it. -/
def Obligations.ExplicitValueIsThatOfTheTwin : Prop :=
  ∀ (p : Params) (x : Enc), p.legal = true → p.explicitJ = true → x.Fits p.E p.M → x.e ≠ p.eOnes →
    (valueExpl p x).val = (x.m : ℚ) * 2 ^ ((max x.e 1 : ℤ) - p.B - ((p.M : ℤ) - 1)) ∧
    (classifyExplicit p x = .canonicalNormal →
      (valueExpl p x).val = (valueImpl p { s := x.s, e := x.e, m := slice x.m 0 p.F }).val) ∧
    (classifyExplicit p x = .canonicalSubnormal →
      (valueExpl p x).val = (valueImpl p { s := x.s, e := 0, m := slice x.m 0 p.F }).val) ∧
    (x.e = 0 → jBit p x = true →
      (valueExpl p x).val = (valueImpl p { s := x.s, e := 1, m := slice x.m 0 p.F }).val) ∧
    (2 ≤ x.e → jBit p x = false →
      (valueExpl p x).val = (valueExpl p { s := x.s, e := x.e - 1, m := 2 * x.m }).val)

/-! ## ROUND.RNE and ROUND.TRUNC -/

/-- 40_rounding.md rule R65. -/
def Obligations.NanOperandGivesTheCanonicalNan : Prop :=
  ∀ (mode : RoundMode) (sat : Bool) (s : State), s.params.legal = true → F64IsNan s.a →
    exec (roundInstr mode sat) s = .next { s with
      y := BitVec.ofNat 64 (if s.params.explicitJ then s.params.eOnes * 2 ^ s.params.M + 1 else s.params.nanCode)
      err := 0
      grs := 0 }

/-- 40_rounding.md rule R66. In an instance with W = 65 the sign of the result has no wire (assumption 4, DEDUCED). -/
def Obligations.InfiniteOperandKeepsItsSign : Prop :=
  ∀ (mode : RoundMode) (sat : Bool) (s : State), s.params.legal = true → F64IsInf s.a →
    (s.params.kind ≠ .e4m3 → exec (roundInstr mode sat) s = .next { s with
      y := BitVec.ofNat 64 ((f64Sign s.a).toNat * 2 ^ (s.params.E + s.params.M) + s.params.eOnes * 2 ^ s.params.M)
      err := 0
      grs := 0 }) ∧
    (s.params.kind = .e4m3 → sat = true → exec (roundInstr mode sat) s = .next { s with
      y := if f64Sign s.a then 0xFE else 0x7E
      err := 0
      grs := 0 }) ∧
    (s.params.kind = .e4m3 → sat = false →
      exec (roundInstr mode sat) s = .next { s with y := 0, err := 3, grs := 0 })

/-- 40_rounding.md rule R67. In an instance with W = 65 the sign of the result has no wire (assumption 4, DEDUCED). -/
def Obligations.ZeroOperandKeepsItsSign : Prop :=
  ∀ (mode : RoundMode) (sat : Bool) (s : State), s.params.legal = true → F64IsZero s.a →
    exec (roundInstr mode sat) s = .next { s with
      y := BitVec.ofNat 64 ((f64Sign s.a).toNat * 2 ^ (s.params.E + s.params.M))
      err := 0
      grs := 0 }

/-- 40_rounding.md rule R68: the range check of the exact operand, in both kinds that have one, whatever `sat` is; the
IEEE kind has none. -/
def Obligations.OutOfRangeOperandIsRejected : Prop :=
  ∀ (mode : RoundMode) (sat : Bool) (s : State), s.params.legal = true → F64IsFiniteNonzero s.a →
    ((s.params.kind = .e4m3 ∧ (448 < f64Abs s.a ∨ f64Abs s.a < 1 / 2 ^ 9)) ∨
        (s.params.kind = .e5m2 ∧ (57344 < f64Abs s.a ∨ f64Abs s.a < 1 / 2 ^ 16)) →
      exec (roundInstr mode sat) s = .next { s with y := 0, err := 4, grs := 0 }) ∧
    (s.params.kind = .ieee → ∃ t, exec (roundInstr mode sat) s = .next t ∧ t.err = 0)

/-- 40_rounding.md rule R69: exponent, quantum and shift of a finite non-zero operand; no bit is shifted in. -/
def Obligations.ShiftNeverBringsBitsIn : Prop :=
  ∀ (p : Params) (a : Word) (sgn : Bool) (x : Magnitude), p.legal = true → decodeF64 a = .finite sgn x →
    (2 : ℚ) ^ leadExponent x ≤ x.val ∧ x.val < 2 ^ (leadExponent x + 1) ∧
    biasedExponent p x = leadExponent x + p.B ∧
    (1 ≤ biasedExponent p x → quantumExponent p x = leadExponent x - p.F) ∧
    (biasedExponent p x ≤ 0 → quantumExponent p x = 1 - (p.B : ℤ) - p.F) ∧
    (shiftAmount p x : ℤ) = quantumExponent p x - x.exp

/-- 40_rounding.md rule R70: the tentative result and what G, R and S say of the discarded part. -/
def Obligations.GrsMeasureTheDiscardedPart : Prop :=
  ∀ (p : Params) (a : Word) (sgn : Bool) (x : Magnitude), p.legal = true → decodeF64 a = .finite sgn x →
    (tentative p x : ℤ) = ⌊x.val / 2 ^ quantumExponent p x⌋ ∧
    ∃ ρ : ℚ, 0 ≤ ρ ∧ ρ < 1 / 4 ∧
      x.val / 2 ^ quantumExponent p x - tentative p x =
        ((roundGrs p x)[2].toNat : ℚ) / 2 + ((roundGrs p x)[1].toNat : ℚ) / 4 + ρ ∧
      ((roundGrs p x)[0] = true ↔ 0 < ρ)

/-- 40_rounding.md rule R71: the bit-level view of the tentative result and of G, R and S. -/
def Obligations.BitLevelViewOfTheDiscardedPart : Prop :=
  ∀ (p : Params) (a : Word) (sgn : Bool) (x : Magnitude), p.legal = true → decodeF64 a = .finite sgn x →
    (1 ≤ f64Exp a → 1 ≤ biasedExponent p x →
      tentative p x = 2 ^ p.F + f64Frac a / 2 ^ (52 - p.F) ∧
      (roundGrs p x)[2] = (decide (p.F ≤ 51) && (f64Frac a).testBit (51 - p.F)) ∧
      (roundGrs p x)[1] = (decide (p.F ≤ 50) && (f64Frac a).testBit (50 - p.F)) ∧
      (roundGrs p x)[0] = (decide (p.F ≤ 49) && decide (f64Frac a % 2 ^ (50 - p.F) ≠ 0))) ∧
    (1 ≤ f64Exp a → biasedExponent p x ≤ 0 →
      (shiftAmount p x : ℤ) = 52 - p.F + (1 - biasedExponent p x) ∧
      tentative p x = (2 ^ 52 + f64Frac a) / 2 ^ shiftAmount p x ∧
      ((roundGrs p x)[0] = true ↔ ∃ i, i + 3 ≤ shiftAmount p x ∧ (2 ^ 52 + f64Frac a).testBit i = true)) ∧
    (55 ≤ shiftAmount p x → tentative p x = 0 ∧ roundGrs p x = 0b001#3)

/-- 40_rounding.md rule R73: where a carry out of the fraction goes. -/
def Obligations.CarryGoesIntoTheExponent : Prop :=
  ∀ (p : Params) (a : Word) (sgn : Bool) (x : Magnitude) (mode : RoundMode),
    p.legal = true → decodeF64 a = .finite sgn x →
    tentative p x < 2 ^ (p.F + 1) ∧
    (1 ≤ biasedExponent p x → 2 ^ p.F ≤ tentative p x ∧
      (tentative p x + (increment p mode x).toNat < 2 ^ (p.F + 1) →
        roundedCode p mode x = (biasedExponent p x).toNat * 2 ^ p.F +
          (tentative p x - 2 ^ p.F + (increment p mode x).toNat)) ∧
      (tentative p x + (increment p mode x).toNat = 2 ^ (p.F + 1) →
        roundedCode p mode x = ((biasedExponent p x).toNat + 1) * 2 ^ p.F)) ∧
    (biasedExponent p x ≤ 0 →
      roundedCode p mode x = tentative p x + (increment p mode x).toNat ∧ roundedCode p mode x ≤ 2 ^ p.F)

/-- 40_rounding.md section 2 (rules R80 and R74): ROUND.RNE answers a representable value nearest to the operand, ties to
the even magnitude code; an infinity only in the IEEE kind, and there exactly from the midpoint
`(2 - 2^-(F+1)) * 2^maxExponent` above the largest finite value on. In an instance with W = 65 the sign of the result has
no wire (assumption 4, DEDUCED). -/
def Obligations.RneGivesANearestValue : Prop :=
  ∀ (sat : Bool) (s : State), s.params.legal = true → s.params.subAsZero = false → Rounds s.params s.a →
    ∃ (c : Nat) (g : Code3),
      exec (.roundRne sat) s = .next (s.respond (formatWord s.params (Enc.ofCode s.params (f64Sign s.a) c)) g) ∧
      ((c ≤ s.params.maxfCode ∧
          (s.params.kind = .ieee → f64Abs s.a < (2 - 1 / 2 ^ (s.params.F + 1)) * 2 ^ s.params.maxExponent)) ∨
        (s.params.kind = .ieee ∧ c = s.params.infCode ∧
          (2 - 1 / 2 ^ (s.params.F + 1)) * 2 ^ s.params.maxExponent ≤ f64Abs s.a)) ∧
      (c ≤ s.params.maxfCode → ∀ c', c' ≤ s.params.maxfCode →
        |codeVal s.params c - f64Abs s.a| ≤ |codeVal s.params c' - f64Abs s.a| ∧
        (c' ≠ c → |codeVal s.params c - f64Abs s.a| = |codeVal s.params c' - f64Abs s.a| → c % 2 = 0))

/-- 40_rounding.md rule R79: ROUND.TRUNC answers the largest representable value not above the operand. Beyond the rule,
the E4M3 operands from 2^(maxExponent+1) = 256 up to 448 are taken in. In an instance with W = 65 the sign of the result
has no wire (assumption 4, DEDUCED). -/
def Obligations.TruncGivesTheLargestValueNotAbove : Prop :=
  ∀ (sat : Bool) (s : State), s.params.legal = true → s.params.subAsZero = false →
    (F64IsZero s.a ∨ Rounds s.params s.a) →
    (s.params.kind ≠ .e4m3 → f64Abs s.a < 2 ^ (s.params.maxExponent + 1)) →
    ∃ (c : Nat) (g : Code3),
      exec (.roundTrunc sat) s = .next (s.respond (formatWord s.params (Enc.ofCode s.params (f64Sign s.a) c)) g) ∧
      c ≤ s.params.maxfCode ∧ codeVal s.params c ≤ f64Abs s.a ∧
      ∀ c', c' ≤ s.params.maxfCode → codeVal s.params c' ≤ f64Abs s.a → codeVal s.params c' ≤ codeVal s.params c

/-- 40_rounding.md section 2: an operand that is a value of the format keeps it, exactly, under both modes; a subnormal
one is excepted where SUB_AS_ZERO = 1 (assumption 11, DEDUCED). In an instance with W = 65 the sign of the result has no
wire (assumption 4, DEDUCED). -/
def Obligations.RepresentableOperandIsKept : Prop :=
  ∀ (mode : RoundMode) (sat : Bool) (s : State) (c : Nat), s.params.legal = true → f64Exp s.a ≠ 2047 →
    c ≤ s.params.maxfCode → codeVal s.params c = f64Abs s.a →
    (s.params.subAsZero = true → c = 0 ∨ 2 ^ s.params.F ≤ c) →
    exec (roundInstr mode sat) s =
      .next (s.respond (formatWord s.params (Enc.ofCode s.params (f64Sign s.a) c)) 0)

/-- 40_rounding.md rule R74: overflow, in both modes; the kinds with a range check have none. In an instance with W = 65
the sign of the result has no wire (assumption 4, DEDUCED). -/
def Obligations.OverflowSaturates : Prop :=
  (∀ (mode : RoundMode) (sat : Bool) (s : State) (x : Magnitude), s.params.legal = true → Rounds s.params s.a →
    decodeF64 s.a = .finite (f64Sign s.a) x →
    (s.params.maxfCode < roundedCode s.params mode x → s.params.kind = .ieee ∧
      exec (roundInstr mode sat) s = .next (s.respond (BitVec.ofNat 64
        ((f64Sign s.a).toNat * 2 ^ (s.params.E + s.params.M) + s.params.eOnes * 2 ^ s.params.M))
        (roundGrs s.params x))) ∧
    (s.params.kind = .ieee → 2 ^ (s.params.maxExponent + 1) ≤ f64Abs s.a →
      s.params.maxfCode < roundedCode s.params mode x)) ∧
  ∀ (p : Params) (c : Nat), p.legal = true → p.maxfCode < c →
    saturateFlush p c = if p.hasInf then p.infCode else p.maxfCode

/-- 40_rounding.md rule R75: the flush is of the rounded result and keeps the sign. In an instance with W = 65 the sign of
the result has no wire (assumption 4, DEDUCED). -/
def Obligations.FlushIsOfTheRoundedResult : Prop :=
  ∀ (mode : RoundMode) (sat : Bool) (s : State) (x : Magnitude), s.params.legal = true → s.params.subAsZero = true →
    Rounds s.params s.a → decodeF64 s.a = .finite (f64Sign s.a) x →
    (roundedCode s.params mode x < 2 ^ s.params.F →
      exec (roundInstr mode sat) s = .next (s.respond
        (BitVec.ofNat 64 ((f64Sign s.a).toNat * 2 ^ (s.params.E + s.params.M))) (roundGrs s.params x))) ∧
    (2 ^ s.params.F ≤ roundedCode s.params mode x → roundedCode s.params mode x ≤ s.params.maxfCode →
      exec (roundInstr mode sat) s = .next (s.respond
        (formatWord s.params (Enc.ofCode s.params (f64Sign s.a) (roundedCode s.params mode x))) (roundGrs s.params x)))

/-- 40_rounding.md rule R77: ROUND in an explicit instance is ROUND in its implicit twin with the J bit inserted. -/
def Obligations.ExplicitRoundInsertsTheJBit : Prop :=
  ∀ (mode : RoundMode) (sat : Bool) (s : State), s.params.legal = true → s.params.explicitJ = true →
    ∃ t u, exec (roundInstr mode sat) s = .next t ∧
      exec (roundInstr mode sat)
        { s with params := { s.params with M := s.params.M - 1, explicitJ := false } } = .next u ∧
      t.err = 0 ∧ u.err = 0 ∧ t.grs = u.grs ∧
      (explicitFields s.params t.y.toNat).e = (implicitFields s.params u.y.toNat).e ∧
      (explicitFields s.params t.y.toNat).m = (implicitFields s.params u.y.toNat).m +
        (if 1 ≤ (implicitFields s.params u.y.toNat).e ∧ (implicitFields s.params u.y.toNat).e ≤ 2 ^ s.params.E - 2
          then 2 ^ s.params.F else 0) ∧
      (s.params.W ≤ 64 → (explicitFields s.params t.y.toNat).s = (implicitFields s.params u.y.toNat).s)

/-- 40_rounding.md rule R78: when `grs` is driven, and that it is zero exactly when the conversion is exact. -/
def Obligations.GrsTellsInexactness : Prop :=
  ∀ (mode : RoundMode) (sat : Bool) (s : State), s.params.legal = true →
    ∃ t, exec (roundInstr mode sat) s = .next t ∧
      (¬ Rounds s.params s.a → t.grs = 0) ∧
      (Rounds s.params s.a → ∀ x, decodeF64 s.a = .finite (f64Sign s.a) x → t.err = 0 ∧
        t.grs = roundGrs s.params x ∧
        (t.grs ≠ 0 ↔ ((tentative s.params x + (increment s.params mode x).toNat : ℕ) : ℚ) *
          2 ^ quantumExponent s.params x ≠ f64Abs s.a))

/-! ## TO_F64 -/

/-- 40_rounding.md rule R82, for an implicit instance: TO_F64 of a finite value is the binary64 word of that value. -/
def Obligations.ToF64IsExact : Prop :=
  ∀ (s : State) (x : Enc), s.params.legal = true → s.params.explicitJ = false →
    x = implicitFields s.params (slice s.a.toNat 0 s.params.W) → x.code s.params ≤ s.params.maxfCode →
    (classify s.params x = .subnormal → s.params.subAsZero = false) →
    ∃ y, exec .toF64 s = .next (s.respond y 0) ∧
      f64Exp y ≠ 2047 ∧ f64Sign y = x.s ∧ f64Abs y = (valueImpl s.params x).val

/-- 40_rounding.md section 3 (rule R87): TO_F64 in an explicit instance keeps the value of every finite operand, canonical
or not; a value below the smallest normal is excepted where SUB_AS_ZERO = 1. In an instance with W = 65 the operand's sign
is a free value (assumption 2, DESIGN CHOICE). -/
def Obligations.ToF64IsExactInAnExplicitInstance : Prop :=
  ∀ (s : State) (x : Enc), s.params.legal = true → s.params.explicitJ = true →
    x = explicitFields s.params (operandW s.params 1 s.a) → x.e ≠ s.params.eOnes →
    (s.params.subAsZero = true → x.m = 0 ∨ (2 : ℚ) ^ s.params.minExponent ≤ (valueExpl s.params x).val) →
    ∃ y, exec .toF64 s = .next (s.respond y 0) ∧
      f64Exp y ≠ 2047 ∧ f64Sign y = x.s ∧ f64Abs y = (valueExpl s.params x).val

/-- 40_rounding.md rules R84 and R85, in implicit and explicit instances. In an instance with W = 65 the operand's sign is
a free value (assumption 2, DESIGN CHOICE). -/
def Obligations.ToF64OfNanAndInfinity : Prop :=
  ∀ s : State, s.params.legal = true →
    (s.params.explicitJ = false → ∀ x, x = implicitFields s.params (slice s.a.toNat 0 s.params.W) →
      (classify s.params x = .nan → exec .toF64 s = .next (s.respond 0x7FF0000000000001 0)) ∧
      (classify s.params x = .inf →
        exec .toF64 s = .next (s.respond (if x.s then 0xFFF0000000000000 else 0x7FF0000000000000) 0))) ∧
    (s.params.explicitJ = true → ∀ x, x = explicitFields s.params (operandW s.params 1 s.a) →
      (classifyExplicit s.params x = .nan → exec .toF64 s = .next (s.respond 0x7FF0000000000001 0)) ∧
      (classifyExplicit s.params x = .inf →
        exec .toF64 s = .next (s.respond (if x.s then 0xFFF0000000000000 else 0x7FF0000000000000) 0)))

/-- 40_rounding.md rule R86. In an instance with W = 65 the operand's sign is a free value (assumption 2, DESIGN CHOICE). -/
def Obligations.ToF64FlushesSubnormals : Prop :=
  ∀ s : State, s.params.legal = true → s.params.subAsZero = true →
    ∀ x, x = toF64Source s.params (operandW s.params 1 s.a) → classify s.params x = .subnormal →
      exec .toF64 s = .next (s.respond (if x.s then 0x8000000000000000 else 0) 0)

/-- 10_state.md section 4 and 40_rounding.md section 3: the encodings that count as zero, subnormals among them where
SUB_AS_ZERO = 1, are exactly those that TO_F64 converts to a zero. -/
def Obligations.CountsAsZeroExactlyIfToF64GivesZero : Prop :=
  ∀ (p : Params) (x : Enc), p.legal = true → x.Fits p.E p.F →
    (countsAsZero p x = true ↔ F64IsZero (toF64Word p x))

/-- 40_rounding.md section 3 (rule R88): ROUND of a value of the format and TO_F64 back give the binary64 word again: on the
ports of every instance with W at most 64, and of the values themselves in every instance (with W = 65 the sign between
the two requests has no wire, assumptions 2 and 4). A subnormal value is excepted where SUB_AS_ZERO = 1 (assumption 11,
DEDUCED). -/
def Obligations.BinaryWordRoundTrips : Prop :=
  ∀ (s : State) (mode : RoundMode) (sat : Bool) (c : Nat), s.params.legal = true → f64Exp s.a ≠ 2047 →
    c ≤ s.params.maxfCode → codeVal s.params c = f64Abs s.a →
    (s.params.subAsZero = true → c = 0 ∨ 2 ^ s.params.F ≤ c) →
    (∃ t, exec (roundInstr mode sat) s = .next t ∧ t.err = 0 ∧ t.grs = 0 ∧
      (s.params.W ≤ 64 → exec .toF64 (t.present { ctl := encode .toF64, a := t.y }) =
        .next ((t.present { ctl := encode .toF64, a := t.y }).respond s.a 0))) ∧
    ∃ r, roundCore s.params mode sat (decodeF64 s.a) = .ok (r, 0) ∧ toF64Word s.params r = s.a ∧
      (s.params.explicitJ = true → toF64Word s.params (jRemove s.params (jInsert s.params r)) = s.a)

/-- 40_rounding.md section 3 (rule R88), on the ports of an implicit instance: TO_F64 and then ROUND.RNE of its result
give the operand again, for every encoding but a NaN and, where SUB_AS_ZERO = 1, a subnormal. -/
def Obligations.ImplicitEncodingRoundTrips : Prop :=
  ∀ (s : State) (sat : Bool) (x : Enc), s.params.legal = true → s.params.explicitJ = false →
    x = implicitFields s.params (slice s.a.toNat 0 s.params.W) → classify s.params x ≠ .nan →
    (classify s.params x = .subnormal → s.params.subAsZero = false) →
    ∃ t, exec .toF64 s = .next t ∧
      exec (.roundRne sat) (t.present { ctl := encode (.roundRne sat), a := t.y }) =
        .next ((t.present { ctl := encode (.roundRne sat), a := t.y }).respond
          (BitVec.ofNat 64 (slice s.a.toNat 0 s.params.W)) 0)

/-- 40_rounding.md section 3 (rule R88): in an explicit instance the round trip of an encoding gives its canonical form: on
the ports TO_F64 and then ROUND.RNE of its result give the canonical form of the operand, which CANON answers too (where W
is at most 64; with W = 65 each operation's operand has a free bit, assumption 2), and so for every encoding's value. -/
def Obligations.ExplicitEncodingRoundTripsToCanon : Prop :=
  (∀ (s : State) (sat : Bool) (x : Enc), s.params.legal = true → s.params.explicitJ = true →
    x = explicitFields s.params (operandW s.params 1 s.a) → classifyExplicit s.params x ≠ .nan →
    (s.params.subAsZero = true →
      x.e = s.params.eOnes ∨ x.m = 0 ∨ (2 : ℚ) ^ s.params.minExponent ≤ (valueExpl s.params x).val) →
    ∃ t, exec .toF64 s = .next t ∧
      exec (.roundRne sat) (t.present { ctl := encode (.roundRne sat), a := t.y }) =
        .next ((t.present { ctl := encode (.roundRne sat), a := t.y }).respond
          (explicitWord s.params (canonForm s.params x)) 0) ∧
      (s.params.W ≤ 64 → exec .canon s = .next (s.respond (explicitWord s.params (canonForm s.params x)) 0))) ∧
  ∀ (p : Params) (sat : Bool) (x : Enc), p.legal = true → p.explicitJ = true → x.Fits p.E p.M →
    classifyExplicit p x ≠ .nan →
    (p.subAsZero = true → x.e = p.eOnes ∨ x.m = 0 ∨ (2 : ℚ) ^ p.minExponent ≤ (valueExpl p x).val) →
    ∃ r, roundCore p .rne sat (decodeF64 (toF64Word p (jRemove p x))) = .ok (r, 0) ∧ jInsert p r = canonForm p x

/-! ## The explicit-J-bit adapter -/

/-- 41_jbit_adapter.md section on CANON: the answer is the canonical encoding of the operand's value, and NaN and infinity
pass unchanged. In an instance with W = 65 the operand's sign is a free value (assumption 2, DESIGN CHOICE) and the sign of
the result has no wire (assumption 4, DEDUCED). -/
def Obligations.CanonAnswersTheCanonicalForm : Prop :=
  ∀ (s : State) (x : Enc), s.params.legal = true → s.params.explicitJ = true →
    x = explicitFields s.params (operandW s.params 2 s.a) →
    ∃ c : Enc, exec .canon s = .next (s.respond (explicitWord s.params c) 0) ∧
      c.Fits s.params.E s.params.M ∧ c.s = x.s ∧
      (x.e = s.params.eOnes → c = x) ∧
      (x.e ≠ s.params.eOnes → c.e ≠ s.params.eOnes ∧ CanonicalJ s.params c ∧
        (valueExpl s.params c).val = (valueExpl s.params x).val)

/-- 41_jbit_adapter.md rule R91; the value kept is the sign and the magnitude. -/
def Obligations.CanonIsIdempotentAndKeepsTheValue : Prop :=
  ∀ (p : Params) (x : Enc), p.legal = true → p.explicitJ = true → x.Fits p.E p.M →
    canonForm p (canonForm p x) = canonForm p x ∧ (canonForm p x).s = x.s ∧
    (x.e ≠ p.eOnes → (valueExpl p (canonForm p x)).val = (valueExpl p x).val ∧
      canonForm p x = jInsert p (jRemove p x))

/-- 41_jbit_adapter.md rule R93, as the answer of J_EXPAND: `{s, e, J, f}`. In an instance with W = 65 the sign of the result
has no wire (assumption 4, DEDUCED). -/
def Obligations.JExpandInsertsTheJBit : Prop :=
  ∀ (s : State) (x : Enc), s.params.legal = true → s.params.explicitJ = true →
    x = implicitFields s.params (slice s.a.toNat 0 s.params.WI) →
    exec .jExpand s = .next (s.respond (BitVec.ofNat 64
      (x.s.toNat * 2 ^ (s.params.E + s.params.M) + x.e * 2 ^ s.params.M +
        (if 1 ≤ x.e ∧ x.e ≤ 2 ^ s.params.E - 2 then 1 else 0) * 2 ^ s.params.F + x.m)) 0)

/-- 41_jbit_adapter.md section on J_DROP (rule R95): infinity and NaN, and for every finite operand the implicit encoding
of its value. In an instance with W = 65 the operand's sign is a free value (assumption 2, DESIGN CHOICE). -/
def Obligations.JDropRemovesTheJBit : Prop :=
  ∀ (s : State) (x : Enc), s.params.legal = true → s.params.explicitJ = true →
    x = explicitFields s.params (operandW s.params 4 s.a) →
    ∃ r : Enc, exec .jDrop s = .next (s.respond (BitVec.ofNat 64 (pack s.params.E s.params.F r)) 0) ∧
      r.Fits s.params.E s.params.F ∧
      (x.e = s.params.eOnes → x.m = 0 → r = { s := x.s, e := s.params.eOnes, m := 0 }) ∧
      (x.e = s.params.eOnes → x.m % 2 ^ s.params.F ≠ 0 →
        r = { s := x.s, e := s.params.eOnes, m := x.m % 2 ^ s.params.F }) ∧
      (x.e = s.params.eOnes → x.m = 2 ^ s.params.F → r = { s := false, e := s.params.eOnes, m := 1 }) ∧
      (x.e ≠ s.params.eOnes → r.s = x.s ∧ r.e ≠ s.params.eOnes ∧
        (valueImpl s.params r).val = (valueExpl s.params x).val)

/-- 41_jbit_adapter.md rule R96; the value kept is the sign and the magnitude. The canonical encodings of the image clause
are those whose exponent field is not all ones (assumption 13, DEDUCED). -/
def Obligations.AdapterRoundTrips : Prop :=
  ∀ p : Params, p.legal = true → p.explicitJ = true →
    (∀ r : Enc, r.Fits p.E p.F → jRemove p (jInsert p r) = r) ∧
    (∀ x : Enc, x.Fits p.E p.M → x.e ≠ p.eOnes →
      (jRemove p x).s = x.s ∧ (valueImpl p (jRemove p x)).val = (valueExpl p x).val ∧
        jInsert p (jRemove p x) = canonForm p x) ∧
    (∀ x : Enc, x.e = p.eOnes → x.m = 0 → jInsert p (jRemove p x) = x) ∧
    (∀ r r' : Enc, r.Fits p.E p.F → r'.Fits p.E p.F → jInsert p r = jInsert p r' → r = r') ∧
    (∀ x : Enc, x.Fits p.E p.M → x.e ≠ p.eOnes →
      (CanonicalJ p x ↔ ∃ r : Enc, r.Fits p.E p.F ∧ jInsert p r = x))

/-- 41_jbit_adapter.md rule R97: CANON, J_EXPAND and J_DROP keep the sign and the exact value of every finite operand, a
subnormal one too, whatever SUB_AS_ZERO is; SUB_AS_ZERO changes nothing; grs = 000, and neither error of ROUND is raised.
In an instance with W = 65 the operand's sign is a free value in CANON and J_DROP (assumption 2, DESIGN CHOICE) and the
sign of the result has no wire in CANON and J_EXPAND (assumption 4, DEDUCED). -/
def Obligations.AdapterNeitherRoundsNorFlushes : Prop :=
  (∀ (i : Instr) (s : State), i.needsExplicitJ = true → s.params.legal = true →
    ∃ t, exec i s = .next t ∧ t.grs = 0 ∧ t.err ≠ 3 ∧ t.err ≠ 4 ∧
      (s.params.kind = .ieee → ∀ z, ∃ u,
        exec i { s with params := { s.params with subAsZero := z } } = .next u ∧
        u.y = t.y ∧ u.err = t.err ∧ u.grs = t.grs)) ∧
  ∀ s : State, s.params.legal = true → s.params.explicitJ = true →
    (∀ x, x = explicitFields s.params (operandW s.params 2 s.a) → x.e ≠ s.params.eOnes →
      ∃ c : Enc, exec .canon s = .next (s.respond (explicitWord s.params c) 0) ∧ c.Fits s.params.E s.params.M ∧
        c.s = x.s ∧ (valueExpl s.params c).val = (valueExpl s.params x).val) ∧
    (∀ r, r = implicitFields s.params (operandWI s.params s.a) → r.e ≠ s.params.eOnes →
      ∃ c : Enc, exec .jExpand s = .next (s.respond (explicitWord s.params c) 0) ∧ c.Fits s.params.E s.params.M ∧
        c.s = r.s ∧ (valueExpl s.params c).val = (valueImpl s.params r).val) ∧
    (∀ x, x = explicitFields s.params (operandW s.params 4 s.a) → x.e ≠ s.params.eOnes →
      ∃ r : Enc, exec .jDrop s = .next (s.respond (implicitWord s.params r) 0) ∧ r.Fits s.params.E s.params.F ∧
        r.s = x.s ∧ (valueImpl s.params r).val = (valueExpl s.params x).val)
end

