-- ==== Sys2Proof/Laws/Format.lean ====
section
/-! SUPPORT. Laws/Format.lean: bounds of a legal instance, and packing and splitting of packed values. -/

namespace Sys2Proof

/-- The conditions of 00_scope.md rule R11 that hold of every legal instance. -/
theorem Params.legal_bounds {p : Params} (h : p.legal = true) : 2 ≤ p.E ∧ p.E ≤ 11 ∧ 1 ≤ p.F ∧ p.F ≤ 52 := by
  simp only [Params.legal, Bool.and_eq_true, decide_eq_true_eq] at h
  omega

theorem Params.legal_e4m3 {p : Params} (h : p.legal = true) (hk : p.kind = .e4m3) : p = Params.e4m3 := by
  obtain ⟨E, M, j, z, k⟩ := p
  simp only [Params.legal, Bool.and_eq_true, decide_eq_true_eq] at h hk
  subst hk
  simp_all [Params.e4m3]

theorem Params.legal_e5m2 {p : Params} (h : p.legal = true) (hk : p.kind = .e5m2) : p = Params.e5m2 := by
  obtain ⟨E, M, j, z, k⟩ := p
  simp only [Params.legal, Bool.and_eq_true, decide_eq_true_eq] at h hk
  subst hk
  simp_all [Params.e5m2]

/-- An explicit instance has KIND = IEEE (00_scope.md rule R11). -/
theorem Params.ieee_of_explicitJ {p : Params} (h : p.legal = true) (hj : p.explicitJ = true) : p.kind = .ieee := by
  cases hk : p.kind with
  | ieee => rfl
  | e4m3 => simp [Params.legal_e4m3 h hk, Params.e4m3] at hj
  | e5m2 => simp [Params.legal_e5m2 h hk, Params.e5m2] at hj

theorem Params.F_of_implicit {p : Params} (hj : p.explicitJ = false) : p.F = p.M := by simp [Params.F, hj]

theorem Params.M_of_explicit {p : Params} (h : p.legal = true) (hj : p.explicitJ = true) : p.M = p.F + 1 := by
  have := p.legal_bounds h
  simp only [Params.F, hj, if_true] at *
  omega

theorem Params.eOnes_ge {p : Params} (h : p.legal = true) : 3 ≤ p.eOnes := by
  have h2 : 2 ^ 2 ≤ 2 ^ p.E := Nat.pow_le_pow_right (by decide) (p.legal_bounds h).1
  simp only [Params.eOnes]
  omega

theorem Params.eOnes_succ (p : Params) : p.eOnes + 1 = 2 ^ p.E := by
  have := Nat.two_pow_pos p.E
  simp only [Params.eOnes]
  omega

namespace Machine

theorem slice_lt (v lo width : Nat) : slice v lo width < 2 ^ width := Nat.mod_lt _ (Nat.two_pow_pos _)

@[simp] theorem slice_zero_lo (v width : Nat) : slice v 0 width = v % 2 ^ width := by simp [slice]

/-- The split of a packed value has fields in range. -/
theorem unpack_fits (ew mw v : Nat) : (unpack ew mw v).Fits ew mw := ⟨slice_lt _ _ _, slice_lt _ _ _⟩

theorem ofCode_fits (p : Params) (s : Bool) (c : Nat) : (Enc.ofCode p s c).Fits p.E p.F :=
  ⟨slice_lt _ _ _, slice_lt _ _ _⟩

/-- A packed value is below `2^(1 + ew + mw)`. -/
theorem pack_lt {ew mw : Nat} {x : Enc} (h : x.Fits ew mw) : pack ew mw x < 2 ^ (1 + ew + mw) := by
  obtain ⟨he, hm⟩ := h
  have h1 : x.e * 2 ^ mw + x.m < 2 ^ (ew + mw) := by
    rw [Nat.pow_add]
    calc x.e * 2 ^ mw + x.m < (x.e + 1) * 2 ^ mw := by rw [Nat.add_mul]; omega
      _ ≤ 2 ^ ew * 2 ^ mw := Nat.mul_le_mul_right _ he
  have h2 : x.s.toNat ≤ 1 := by cases x.s <;> decide
  have h3 : x.s.toNat * 2 ^ (ew + mw) ≤ 1 * 2 ^ (ew + mw) := Nat.mul_le_mul_right _ h2
  rw [show 1 + ew + mw = (ew + mw) + 1 by omega, Nat.pow_succ]
  simp only [pack]
  omega

/-- Splitting a packed value gives its fields back (00_scope.md rule R16). -/
theorem unpack_pack {ew mw : Nat} {x : Enc} (h : x.Fits ew mw) : unpack ew mw (pack ew mw x) = x := by
  obtain ⟨he, hm⟩ := h
  have h1 : x.e * 2 ^ mw + x.m < 2 ^ (ew + mw) := by
    rw [Nat.pow_add]
    calc x.e * 2 ^ mw + x.m < (x.e + 1) * 2 ^ mw := by rw [Nat.add_mul]; omega
      _ ≤ 2 ^ ew * 2 ^ mw := Nat.mul_le_mul_right _ he
  obtain ⟨s, e, m⟩ := x
  simp only [unpack, pack, slice, Enc.mk.injEq] at *
  have hp : s.toNat * 2 ^ (ew + mw) + e * 2 ^ mw + m = m + 2 ^ mw * (e + 2 ^ ew * s.toNat) := by
    rw [Nat.pow_add]; ring
  refine ⟨?_, ?_, ?_⟩
  · rw [Nat.testBit_eq_decide_div_mod_eq, Nat.add_assoc, Nat.add_comm, Nat.add_mul_div_right _ _ (Nat.two_pow_pos _),
      Nat.div_eq_of_lt h1]
    cases s <;> rfl
  · rw [hp, Nat.add_mul_div_left _ _ (Nat.two_pow_pos _), Nat.div_eq_of_lt hm, Nat.zero_add, Nat.add_mul_mod_self_left,
      Nat.mod_eq_of_lt he]
  · rw [hp, Nat.pow_zero, Nat.div_one, Nat.add_mul_mod_self_left, Nat.mod_eq_of_lt hm]

/-- Packing the fields of a number gives the number back, where it has no further bits. -/
theorem pack_unpack {ew mw v : Nat} (h : v < 2 ^ (1 + ew + mw)) : pack ew mw (unpack ew mw v) = v := by
  simp only [pack, unpack, slice, Nat.pow_zero, Nat.div_one]
  have h1 : (v.testBit (ew + mw)).toNat = v / 2 ^ mw / 2 ^ ew := by
    rw [Nat.div_div_eq_div_mul, ← Nat.pow_add, Nat.add_comm mw ew]
    have hlt : v / 2 ^ (ew + mw) < 2 := by
      rw [Nat.div_lt_iff_lt_mul (Nat.two_pow_pos _)]
      rw [show 1 + ew + mw = (ew + mw) + 1 by omega, Nat.pow_succ] at h
      omega
    rw [Nat.testBit_eq_decide_div_mod_eq]
    generalize v / 2 ^ (ew + mw) = q at *
    interval_cases q <;> rfl
  rw [h1, Nat.pow_add]
  have h2 := Nat.div_add_mod (v / 2 ^ mw) (2 ^ ew)
  have h3 := Nat.div_add_mod v (2 ^ mw)
  calc v / 2 ^ mw / 2 ^ ew * (2 ^ ew * 2 ^ mw) + v / 2 ^ mw % 2 ^ ew * 2 ^ mw + v % 2 ^ mw
      = (2 ^ ew * (v / 2 ^ mw / 2 ^ ew) + v / 2 ^ mw % 2 ^ ew) * 2 ^ mw + v % 2 ^ mw := by ring
    _ = v := by rw [h2, Nat.mul_comm, h3]

/-- The code of the encoding of a code below `2^(E+F)` is the code. -/
theorem code_ofCode {p : Params} {s : Bool} {c : Nat} (h : c < 2 ^ (p.E + p.F)) : (Enc.ofCode p s c).code p = c := by
  have hd : c / 2 ^ p.F < 2 ^ p.E := by
    rw [Nat.div_lt_iff_lt_mul (Nat.two_pow_pos _), ← Nat.pow_add]
    exact h
  simp only [Enc.code, Enc.ofCode, slice, Nat.pow_zero, Nat.div_one, Nat.mod_eq_of_lt hd]
  rw [Nat.mul_comm]
  exact Nat.div_add_mod c _

/-- An encoding is that of its code. -/
theorem ofCode_code {p : Params} {x : Enc} (h : x.Fits p.E p.F) : Enc.ofCode p x.s (x.code p) = x := by
  obtain ⟨he, hm⟩ := h
  obtain ⟨s, e, m⟩ := x
  simp only [Enc.ofCode, Enc.code, slice, Nat.pow_zero, Nat.div_one, Enc.mk.injEq, true_and] at *
  rw [Nat.add_comm, Nat.add_mul_div_right _ _ (Nat.two_pow_pos _), Nat.div_eq_of_lt hm, Nat.zero_add,
    Nat.mod_eq_of_lt he, Nat.add_mul_mod_self_right, Nat.mod_eq_of_lt hm]
  exact ⟨rfl, rfl⟩

end Machine
end Sys2Proof
end

