-- ==== Sys2Proof/Laws/State.lean ====
section
/-! SUPPORT. Laws/State.lean: one lemma per field of State and per update of the ports. -/

namespace Sys2Proof.Machine

/-- Everything `settle` can do: take the outputs of the answer, or, where there is no answer, nothing. -/
theorem State.settle_cases (s : State) :
    (∃ t, answerRequest s = .next t ∧ s.settle = { s with y := t.y, err := t.err, grs := t.grs }) ∨
    ((∀ t, answerRequest s ≠ .next t) ∧ s.settle = s) := by
  unfold State.settle
  cases h : answerRequest s with
  | next t => exact .inl ⟨t, rfl, rfl⟩
  | fault r => exact .inr ⟨nofun, rfl⟩
  | refused r => exact .inr ⟨nofun, rfl⟩

@[simp] theorem State.settle_params (s : State) : s.settle.params = s.params := by
  obtain ⟨t, -, h⟩ | ⟨-, h⟩ := s.settle_cases <;> rw [h]

@[simp] theorem State.settle_ctl (s : State) : s.settle.ctl = s.ctl := by
  obtain ⟨t, -, h⟩ | ⟨-, h⟩ := s.settle_cases <;> rw [h]

@[simp] theorem State.settle_a (s : State) : s.settle.a = s.a := by
  obtain ⟨t, -, h⟩ | ⟨-, h⟩ := s.settle_cases <;> rw [h]

theorem State.settle_of_next {s t : State} (h : answerRequest s = .next t) :
    s.settle = { s with y := t.y, err := t.err, grs := t.grs } := by simp [State.settle, h]

@[simp] theorem State.present_params (s : State) (rq : Request) : (s.present rq).params = s.params := by
  simp [State.present]
@[simp] theorem State.present_ctl (s : State) (rq : Request) : (s.present rq).ctl = rq.ctl := by simp [State.present]
@[simp] theorem State.present_a (s : State) (rq : Request) : (s.present rq).a = rq.a := by simp [State.present]

@[simp] theorem State.respond_params (s : State) (y : Word) (g : Code3) : (s.respond y g).params = s.params := rfl
@[simp] theorem State.respond_ctl (s : State) (y : Word) (g : Code3) : (s.respond y g).ctl = s.ctl := rfl
@[simp] theorem State.respond_a (s : State) (y : Word) (g : Code3) : (s.respond y g).a = s.a := rfl
@[simp] theorem State.respond_y (s : State) (y : Word) (g : Code3) : (s.respond y g).y = y := rfl
@[simp] theorem State.respond_err (s : State) (y : Word) (g : Code3) : (s.respond y g).err = 0 := rfl
@[simp] theorem State.respond_grs (s : State) (y : Word) (g : Code3) : (s.respond y g).grs = g := rfl

@[simp] theorem State.raise_params (s : State) (e : Err) : (s.raise e).params = s.params := rfl
@[simp] theorem State.raise_ctl (s : State) (e : Err) : (s.raise e).ctl = s.ctl := rfl
@[simp] theorem State.raise_a (s : State) (e : Err) : (s.raise e).a = s.a := rfl
@[simp] theorem State.raise_y (s : State) (e : Err) : (s.raise e).y = 0 := rfl
@[simp] theorem State.raise_err (s : State) (e : Err) : (s.raise e).err = e.code := rfl
@[simp] theorem State.raise_grs (s : State) (e : Err) : (s.raise e).grs = 0 := rfl

@[simp] theorem State.answer_ok (s : State) (r : Word × Code3) : s.answer (.ok r) = s.respond r.1 r.2 := rfl
@[simp] theorem State.answer_error (s : State) (e : Err) : s.answer (.error e) = s.raise e := rfl
@[simp] theorem State.controlWord_eq (s : State) : s.controlWord = s.ctl := rfl

@[simp] theorem State.withFetchWord_params (s : State) (n w : Nat) : (s.withFetchWord n w).params = s.params := by
  simp [State.withFetchWord]
@[simp] theorem State.withFetchWord_ctl (s : State) (n w : Nat) :
    (s.withFetchWord n w).ctl = BitVec.ofNat 7 (w % 2 ^ n) := by simp [State.withFetchWord]
@[simp] theorem State.withFetchWord_a (s : State) (n w : Nat) : (s.withFetchWord n w).a = s.a := by
  simp [State.withFetchWord]

/-- An answer is a response or an error response. -/
theorem State.answer_cases (s : State) (r : Except Err (Word × Code3)) :
    (∃ y g, r = .ok (y, g) ∧ s.answer r = s.respond y g) ∨ (∃ e, r = .error e ∧ s.answer r = s.raise e) := by
  cases r with
  | ok v => exact .inl ⟨v.1, v.2, rfl, rfl⟩
  | error e => exact .inr ⟨e, rfl, rfl⟩

end Sys2Proof.Machine
end

