-- ==== Sys2Proof/Laws/Ops.lean ====
section
/-! SUPPORT. Laws/Ops.lean: what each shared operation on the ports can answer. -/

namespace Sys2Proof.Machine

@[simp] theorem onInstance_of_legal {s : State} (h : s.params.legal = true) (k : Params → State) :
    onInstance s k = .next (k s.params) := by simp [onInstance, h]

@[simp] theorem onInstance_of_not_legal {s : State} (h : s.params.legal = false) (k : Params → State) :
    onInstance s k = .refused .noInstance := by simp [onInstance, h]

/-- A next state of an operation comes from a legal instance. -/
theorem onInstance_eq_next {s t : State} {k : Params → State} :
    onInstance s k = .next t ↔ s.params.legal = true ∧ k s.params = t := by
  unfold onInstance
  split <;> simp_all

@[simp] theorem onExplicitInstance_of_explicit {s : State} (h : s.params.legal = true) (hj : s.params.explicitJ = true)
    (k : Params → State) : onExplicitInstance s k = .next (k s.params) := by simp [onExplicitInstance, h, hj]

@[simp] theorem onExplicitInstance_of_implicit {s : State} (h : s.params.legal = true)
    (hj : s.params.explicitJ = false) (k : Params → State) :
    onExplicitInstance s k = .next (s.raise .illegalOp) := by simp [onExplicitInstance, h, hj]

/-- A next state of an adapter operation is its answer in an explicit instance or ILLEGAL_OP in an implicit one. -/
theorem onExplicitInstance_eq_next {s t : State} {k : Params → State} :
    onExplicitInstance s k = .next t ↔ s.params.legal = true ∧
      ((s.params.explicitJ = true ∧ k s.params = t) ∨ (s.params.explicitJ = false ∧ s.raise .illegalOp = t)) := by
  unfold onExplicitInstance
  rw [onInstance_eq_next]
  cases s.params.explicitJ <;> simp

theorem execReject_eq_next {s t : State} {r : Reject} :
    execReject r s = .next t ↔ s.params.legal = true ∧ s.raise (rejectError r) = t := onInstance_eq_next

/-- Everything answering a request can be: the operation that the control word names, or the error of a word that names
none. -/
theorem answerRequest_cases (s : State) :
    (∃ i, decode s.ctl = .instr i ∧ answerRequest s = exec i s) ∨
    (∃ r, decode s.ctl = .reject r ∧ answerRequest s = execReject r s) := by
  unfold answerRequest
  rw [State.controlWord_eq]
  cases h : decode s.ctl with
  | instr i => exact .inl ⟨i, rfl, rfl⟩
  | reject r => exact .inr ⟨r, rfl, rfl⟩

@[simp] theorem bitlen_zero : bitlen 0 = 0 := rfl

theorem bitlen_of_pos {x : Nat} (h : 0 < x) : bitlen x = Nat.log2 x + 1 := by simp [bitlen, Nat.pos_iff_ne_zero.mp h]

/-- `bitlen(x)` is the least n with x < 2^n (00_scope.md rule R14). -/
theorem bitlen_le_iff {x n : Nat} : bitlen x ≤ n ↔ x < 2 ^ n := by
  rcases Nat.eq_zero_or_pos x with rfl | h
  · simp
  · rw [bitlen_of_pos h, Nat.succ_le_iff, Nat.log2_lt h.ne']

theorem lt_two_pow_bitlen (x : Nat) : x < 2 ^ bitlen x := bitlen_le_iff.mp le_rfl

theorem two_pow_bitlen_le {x : Nat} (h : 0 < x) : 2 ^ (bitlen x - 1) ≤ x := by
  rw [bitlen_of_pos h, Nat.add_sub_cancel]
  exact Nat.log2_self_le h.ne'

end Sys2Proof.Machine
end

