-- ==== Sys2Proof/Laws/Adapter.lean ====
section
/-! SUPPORT. Laws/Adapter.lean: the adapter's three re-encodings keep their fields in range. -/

namespace Sys2Proof.Machine

theorem canonForm_fits {p : Params} {x : Enc} (h : p.legal = true) (hx : x.Fits p.E p.M) :
    (canonForm p x).Fits p.E p.M := by
  obtain ⟨he, hm⟩ := hx
  have h3 := Params.eOnes_ge h
  have h4 := p.eOnes_succ
  unfold canonForm
  split
  · exact ⟨he, hm⟩
  split
  · exact ⟨Nat.two_pow_pos _, Nat.two_pow_pos _⟩
  split
  · split
    · exact ⟨show 1 < 2 ^ p.E by omega, hm⟩
    · exact ⟨he, hm⟩
  · refine ⟨?_, slice_lt _ _ _⟩
    dsimp only
    split <;> omega

theorem jInsert_fits {p : Params} {x : Enc} (h : p.legal = true) (hj : p.explicitJ = true) (hx : x.Fits p.E p.F) :
    (jInsert p x).Fits p.E p.M := by
  obtain ⟨he, hm⟩ := hx
  refine ⟨he, ?_⟩
  rw [Params.M_of_explicit h hj, Nat.pow_succ]
  simp only [jInsert]
  split <;> omega

theorem jRemove_fits {p : Params} {x : Enc} (h : p.legal = true) (hx : x.Fits p.E p.M) :
    (jRemove p x).Fits p.E p.F := by
  have h4 := p.eOnes_succ
  unfold jRemove
  split
  · split
    · exact ⟨show p.eOnes < 2 ^ p.E by omega, Nat.two_pow_pos _⟩
    split
    · exact ⟨show p.eOnes < 2 ^ p.E by omega, slice_lt _ _ _⟩
    · exact ofCode_fits _ _ _
  · exact ⟨(canonForm_fits h hx).1, slice_lt _ _ _⟩

end Sys2Proof.Machine
end

