-- ==== Sys2Proof/Laws/PerInstr.lean ====
section
/-! SUPPORT. Laws/PerInstr.lean: the family TableRow: the control word of an operation lies in its row of
spec/opcode_table.json, under the row's mask. -/

namespace Sys2Proof.Laws.TableRow

/-- The mask and match of the operation's row in spec/opcode_table.json. -/
def row (i : Instr) : Ctl × Ctl :=
  match i with
  | .roundRne _ => (0x3F, 0x00)
  | .roundTrunc _ => (0x3F, 0x08)
  | .toF64 => (0x07, 0x01)
  | .canon => (0x07, 0x02)
  | .jExpand => (0x07, 0x03)
  | .jDrop => (0x07, 0x04)

def Statement (i : Instr) : Prop := encode i &&& (row i).1 = (row i).2

theorem roundRne (sat : Bool) : Statement (.roundRne sat) := by cases sat <;> rfl
theorem roundTrunc (sat : Bool) : Statement (.roundTrunc sat) := by cases sat <;> rfl
theorem toF64 : Statement .toF64 := rfl
theorem canon : Statement .canon := rfl
theorem jExpand : Statement .jExpand := rfl
theorem jDrop : Statement .jDrop := rfl

end Sys2Proof.Laws.TableRow
end

