-- ==== Sys2Proof/Laws/Values.lean ====
section
/-! SUPPORT. Laws/Values.lean: the comparison of exact magnitudes is that of the rationals they stand for. -/

namespace Sys2Proof

theorem Magnitude.val_nonneg (x : Magnitude) : 0 ≤ x.val := by
  unfold Magnitude.val
  positivity

/-- A magnitude scaled to a smaller exponent. -/
theorem Magnitude.val_eq_scaled {x : Magnitude} {low : ℤ} (h : low ≤ x.exp) :
    x.val = ((x.sig * 2 ^ (x.exp - low).toNat : ℕ) : ℚ) * 2 ^ low := by
  have h1 : (2 : ℚ) ^ x.exp = 2 ^ (x.exp - low).toNat * 2 ^ low := by
    rw [← zpow_natCast, ← zpow_add₀ (by norm_num), Int.toNat_of_nonneg (by omega)]
    congr 1
    omega
  rw [Magnitude.val, h1]
  push_cast
  ring

/-- `Magnitude.lt` compares the exact values. -/
theorem Magnitude.lt_iff_val_lt (x y : Magnitude) : x.lt y = true ↔ x.val < y.val := by
  rw [Magnitude.val_eq_scaled (min_le_left x.exp y.exp), Magnitude.val_eq_scaled (min_le_right x.exp y.exp),
    mul_lt_mul_iff_left₀ (by positivity), Nat.cast_lt]
  simp [Magnitude.lt]

end Sys2Proof
end

