-- ==== Sys2Proof/Laws/Rounding.lean ====
section
/-! SUPPORT. Laws/Rounding.lean: everything the shared rounding operations can answer. -/

namespace Sys2Proof.Machine

/-- Every answer of `round_core` (40_rounding.md rule R64): an encoding of a code, or one of ROUND's two errors. -/
theorem roundCore_cases (p : Params) (mode : RoundMode) (sat : Bool) (x : F64) :
    (∃ s c g, roundCore p mode sat x = .ok (Enc.ofCode p s c, g)) ∨
    (roundCore p mode sat x = .error .infUnsupported ∧ p.hasInf = false ∧ sat = false ∧ ∃ s, x = .inf s) ∨
    (roundCore p mode sat x = .error .rangeExceeded ∧ ∃ s mag, x = .finite s mag ∧ outOfRange p mag = true) := by
  cases x with
  | nan => exact .inl ⟨_, _, _, rfl⟩
  | zero s => exact .inl ⟨_, _, _, rfl⟩
  | inf s =>
    unfold roundCore
    cases hi : p.hasInf with
    | true => exact .inl ⟨s, p.infCode, 0, by simp⟩
    | false =>
      cases sat with
      | true => exact .inl ⟨s, p.maxfCode, 0, by simp⟩
      | false => exact .inr (.inl ⟨by simp, rfl, rfl, s, rfl⟩)
  | finite s mag =>
    unfold roundCore
    cases ho : outOfRange p mag with
    | true => exact .inr (.inr ⟨by simp [ho], s, mag, rfl, ho⟩)
    | false => exact .inl ⟨s, saturateFlush p (roundedCode p mode mag), roundGrs p mag, by simp [ho]⟩

/-- The implicit value of every answer of `round_core` has its fields in range. -/
theorem roundCore_fits {p : Params} {mode : RoundMode} {sat : Bool} {x : F64} {r : Enc} {g : Code3}
    (h : roundCore p mode sat x = .ok (r, g)) : r.Fits p.E p.F := by
  obtain ⟨s, c, g', h'⟩ | ⟨h', -⟩ | ⟨h', -⟩ := roundCore_cases p mode sat x <;> rw [h'] at h
  · simp only [Except.ok.injEq, Prod.mk.injEq] at h
    exact h.1 ▸ ofCode_fits p s c
  · cases h
  · cases h

/-- A kind without range check rejects no operand. -/
theorem outOfRange_ieee {p : Params} (h : p.kind = .ieee) (x : Magnitude) : outOfRange p x = false := by
  simp [outOfRange, Params.rangeCheck, h]

@[simp] theorem increment_trunc (p : Params) (x : Magnitude) : increment p .trunc x = false := rfl

end Sys2Proof.Machine
end

