-- ==== Sys2Proof/Tests/Slice0.lean ====
section
/-! SUPPORT. Tests/Slice0.lean: smoke tests of the checks, words written out from 30_encoding.md, vectors of
95_test_vectors.md (named by their ids), and for each statement with hypotheses a witness that meets them. -/

set_option Elab.async false

namespace Sys2Proof.Tests

open Sys2Proof.Machine

/-- The ports of an instance with a request on them. -/
def ports (p : Params) (ctl : Ctl) (a : Word) : State :=
  { params := p, ctl := ctl, a := a, y := 0, err := 0, grs := 0 }

/-- The outcome is a next state with these outputs. -/
def answers (o : Host.Outcome State Fault Refusal) (y : Word) (err grs : Code3) : Bool :=
  match o with
  | .next t => decide (t.y = y ∧ t.err = err ∧ t.grs = grs)
  | .fault _ => false
  | .refused _ => false

/-- The outcome is the refusal of an instance that does not exist. -/
def refusesInstance (o : Host.Outcome State Fault Refusal) : Bool :=
  match o with
  | .next _ => false
  | .fault _ => false
  | .refused r => decide (r = .noInstance)

/-- Instances of 95_test_vectors.md. -/
def fp16z : Params := { Params.fp16 with subAsZero := true }
def e2m1 : Params := { E := 2, M := 1, explicitJ := false, subAsZero := false, kind := .ieee }
def x16 : Params := { E := 5, M := 11, explicitJ := true, subAsZero := false, kind := .ieee }
def x16z : Params := { x16 with subAsZero := true }

/-! ## Checks: each refuses an ill-formed term -/

theorem test_legal_named_formats : (Params.fp16.legal && Params.fp32.legal && Params.fp64.legal && Params.bf16.legal &&
    Params.tf32.legal && Params.e4m3.legal && Params.e5m2.legal && x16.legal && x16z.legal && e2m1.legal) = true := by decide
theorem test_legal_refuses_narrow_exponent : { Params.fp16 with E := 1 }.legal = false := by decide
theorem test_legal_refuses_wide_exponent : { Params.fp16 with E := 12 }.legal = false := by decide
theorem test_legal_refuses_no_fraction : { x16 with M := 1 }.legal = false := by decide
theorem test_legal_refuses_wide_fraction : { Params.fp64 with M := 53 }.legal = false := by decide
theorem test_legal_refuses_flushing_e4m3 : { Params.e4m3 with subAsZero := true }.legal = false := by decide
theorem test_legal_refuses_wide_e5m2 : { Params.e5m2 with M := 3 }.legal = false := by decide
theorem test_wellFormed_refuses_canon_in_fp16 : Instr.canon.wellFormedIn .fp16 = false := by decide
theorem test_wellFormed_refuses_illegal_instance :
    Instr.toF64.wellFormedIn { Params.fp16 with E := 1 } = false := by decide
theorem test_wellFormed_accepts_canon_in_x16 : Instr.canon.wellFormedIn x16 = true := by decide
theorem test_step_refuses_illegal_instance :
    refusesInstance (step (ports { Params.fp16 with E := 1 } 0 0)) = true := by decide

/-! ## Words written out from 30_encoding.md rules R49 to R51 and R60: `sat rm op` -/

theorem test_decode_round_rne : decode 0b0_000_000#7 = .instr (.roundRne false) := by decide
theorem test_decode_round_rne_sat : decode 0b1_000_000#7 = .instr (.roundRne true) := by decide
theorem test_decode_round_trunc : decode 0b0_001_000#7 = .instr (.roundTrunc false) := by decide
theorem test_decode_round_trunc_sat : decode 0b1_001_000#7 = .instr (.roundTrunc true) := by decide
theorem test_decode_to_f64_ignores_fields : decode 0b1_111_001#7 = .instr .toF64 := by decide
theorem test_decode_canon : decode 0b0_000_010#7 = .instr .canon := by decide
theorem test_decode_j_expand : decode 0b0_000_011#7 = .instr .jExpand := by decide
theorem test_decode_j_drop : decode 0b0_000_100#7 = .instr .jDrop := by decide
theorem test_decode_other_mode : decode 0b0_010_000#7 = .reject .unsupportedRm := by decide
theorem test_decode_reserved_op : decode 0b0_010_101#7 = .reject .illegalOp := by decide
theorem test_table_word : decodeTableWord 8 0x48 = some (.roundTrunc true) := by decide
theorem test_table_word_too_wide : decodeTableWord 8 0x80 = none := by decide
theorem test_fetch_word : answers (step (State.reset.withFetchWord 8 0x02)) 0 0 0 = true := by decide

/-! ## Vectors of 95_test_vectors.md -/

theorem test_V9_rne_carry : answers (step (ports .fp16 0x00 0x3FFFFF0000000000)) 0x4000 0 0b110 = true := by decide
theorem test_V16_rne_subnormal_tie : answers (step (ports .fp16 0x00 0x3E78000000000000)) 0x2 0 0b100 = true := by decide
theorem test_V37_trunc_overflow : answers (step (ports .fp16 0x08 0x40F0000000000000)) 0x7C00 0 0 = true := by decide
theorem test_V35_trunc_negative :
    answers (step (ports .fp16 0x08 0xBFF0020000001000)) 0xBC00 0 0b101 = true := by decide
theorem test_V83_to_f64_subnormal : answers (step (ports .fp16 0x01 0x3FF)) 0x3F0FF80000000000 0 0 = true := by decide
theorem test_V104_to_f64_exponent_zero_J : answers (step (ports x16 0x01 0x400)) 0x3F10000000000000 0 0 = true := by decide
theorem test_V117_canon_shift : answers (step (ports x16 0x02 0x7801)) 0x2C00 0 0 = true := by decide
theorem test_V111_canon_subnormal : answers (step (ports x16 0x02 0x801)) 0x1 0 0 = true := by decide
theorem test_V127_j_expand_inf : answers (step (ports x16 0x03 0xFC00)) 0x1F800 0 0 = true := by decide
theorem test_V124_j_expand_max : answers (step (ports x16 0x03 0x7BFF)) 0xF7FF 0 0 = true := by decide
theorem test_V136_j_drop_nan : answers (step (ports x16 0x04 0x1FC00)) 0x7C01 0 0 = true := by decide
theorem test_V138_j_drop_shift : answers (step (ports x16 0x04 0x7801)) 0x1400 0 0 = true := by decide
theorem test_V46_flush : answers (step (ports fp16z 0x08 0x3F0FFE0000000000)) 0 0 0b110 = true := by decide
theorem test_V51_range : answers (step (ports .e4m3 0x00 0x407C100000000000)) 0 4 0 = true := by decide
theorem test_V58_e4m3_tie : answers (step (ports .e4m3 0x00 0x407B000000000000)) 0x7E 0 0b100 = true := by decide
theorem test_V60_infinity : answers (step (ports .e4m3 0x00 0x7FF0000000000000)) 0 3 0 = true := by decide
theorem test_V65_e5m2_range : answers (step (ports .e5m2 0x00 0x40EC002000000000)) 0 4 0 = true := by decide
theorem test_V141_illegal_before_mode : answers (step (ports .fp16 0x7F 0x3FF0000000000000)) 0 1 0 = true := by decide
theorem test_V144_canon_in_implicit : answers (step (ports .fp16 0x02 0x3C00)) 0 1 0 = true := by decide
theorem test_V149_mode_before_nan : answers (step (ports .e4m3 0x10 0x7FF8000000000000)) 0 2 0 = true := by decide

theorem test_assemble_raw :
    assemble ".req 0x7F, 0x3FF0000000000000".toList = some { ctl := 0x7F, a := 0x3FF0000000000000 } := by decide
theorem test_assemble_pseudo : assemble "round 0x1".toList = some { ctl := 0x00, a := 1 } := by decide

theorem test_response_text :
    responseText { ports .e4m3 0x40 0 with y := 0x1D, grs := 7 } = "-> y=0x1D err=0 grs=111".toList := by decide

/-! ## Witnesses: for each statement with hypotheses, values that meet all of them together, one conjunct for each clause
at a boundary of its range -/

/-- The outcome is a next state. -/
def isNext (o : Host.Outcome State Fault Refusal) : Bool :=
  match o with
  | .next _ => true
  | .fault _ => false
  | .refused _ => false

/-- The widest legal instance: its packed width is 65. -/
def x65 : Params := { E := 11, M := 53, explicitJ := true, subAsZero := true, kind := .ieee }

theorem witness_StepRunsTheDecodedOperation :
    decode (ports .fp16 0x09 0).ctl = .instr .toF64 ∧ decode (ports .fp16 0x10 0).ctl = .reject .unsupportedRm ∧
    (ports .fp16 0x10 0).params.legal = true := by decide

theorem witness_UnreadFieldsAreDontCare :
    (ports .fp16 0x01 0).params.legal = true ∧ opField 0x79 = opField (ports .fp16 0x01 0).ctl ∧
    opField (ports .fp16 0x01 0).ctl ≠ 0 ∧
    opField 0x48 = opField (ports .e5m2 0x08 0).ctl ∧ rmField 0x48 = rmField (ports .e5m2 0x08 0).ctl ∧
    (ports .e5m2 0x08 0).params.hasInf = true ∧ (ports .e5m2 0x08 0).params.legal = true := by decide

theorem witness_OperandBitsAboveTheWidthAreIgnored :
    (ports .fp16 0x01 0x3C00).params.legal = true ∧ opField (ports .fp16 0x01 0x3C00).ctl ≠ 0 ∧
    slice (0xFFFF3C00#64).toNat 0 Params.fp16.W = slice (0x3C00#64).toNat 0 Params.fp16.W ∧
    opField (ports x16 0x03 0x3C00).ctl = 3 ∧
    slice (0x13C00#64).toNat 0 x16.WI = slice (0x3C00#64).toNat 0 x16.WI := by decide

theorem witness_IllegalOpIsRaised :
    RaisesIllegalOp x16 0x05 ∧ RaisesIllegalOp x16 0x7F ∧ RaisesIllegalOp .fp16 0x02 ∧ RaisesIllegalOp .fp16 0x04 ∧
    x16.legal = true ∧ Params.fp16.legal = true := by
  refine ⟨?_, ?_, ?_, ?_, ?_, ?_⟩ <;> first | decide | (unfold RaisesIllegalOp; decide)

theorem witness_UnsupportedModeIsRaised :
    RaisesUnsupportedRm 0x10 ∧ RaisesUnsupportedRm 0x38 ∧ Params.e4m3.legal = true := by
  refine ⟨?_, ?_, ?_⟩ <;> first | decide | (unfold RaisesUnsupportedRm; decide)

/-- Each error code of ErrorCodeHasItsCause, and EveryRequestIsAnswered and ErrorResponseCarriesNoResult. -/
theorem witness_ErrorCodeHasItsCause :
    answers (step (ports x16 0x07 0)) 0 1 0 = true ∧ answers (step (ports x16 0x10 0)) 0 2 0 = true ∧
    answers (step (ports .e4m3 0x08 0xFFF0000000000000)) 0 3 0 = true ∧
    answers (step (ports .e4m3 0x40 0x3F50000000000000)) 0 4 0 = true ∧ x16.legal = true ∧ Params.e4m3.legal = true := by
  decide

theorem witness_InstanceOutsideTheRangesIsRefused :
    2 ≤ x16.E ∧ x16.E ≤ 11 ∧ 1 ≤ x16.M - x16.explicitJ.toNat ∧ x16.M - x16.explicitJ.toNat ≤ 52 ∧ x16.kind = .ieee ∧
    ({ x16 with M := 54, E := 11 } : Params).M - ({ x16 with M := 54, E := 11 } : Params).explicitJ.toNat = 53 ∧
    ({ Params.e4m3 with E := 5 } : Params).kind = .e4m3 ∧ ({ Params.e4m3 with E := 5 } : Params).E ≠ 4 := by decide

/-- A next state of every operation, and of a rejected request, for OperationsWriteOnlyTheOutputs, RequestsDoNotInteract
and AnsweringIsIdempotent; the widest instance too. -/
theorem witness_OperationsWriteOnlyTheOutputs :
    (isNext (exec (.roundRne true) (ports x16 0 1)) && isNext (exec (.roundTrunc false) (ports .e4m3 0 0)) &&
      isNext (exec .toF64 (ports .fp64 0 5)) && isNext (exec .canon (ports x16 0 0x801)) &&
      isNext (exec .jExpand (ports x65 3 0x801)) && isNext (exec .jDrop (ports .fp16 0 0)) &&
      isNext (step (ports .fp16 0x05 0))) = true := by decide

theorem witness_ResponseDependsOnTheRequestAlone :
    let s := ports .fp16 0x00 0x3FF0000000000000
    let s' := { s with y := 7, err := 4, grs := 5 }
    s'.params = s.params ∧ s'.ctl = s.ctl ∧ s'.a = s.a ∧ s' ≠ s := by decide

/-- For StepKeepsPortsConforming and OutputsFollowTheRequestAtOnce: a legal state that steps, though its outputs are those of
no request. -/
theorem witness_StepKeepsPortsConforming :
    x16z.legal = true ∧ isNext (step { ports x16z 0x02 0x801 with y := 7, err := 4, grs := 5 }) = true := by decide

theorem witness_OperandIsDecomposed :
    F64IsNan 0xFFF0000000000001 ∧ F64IsInf 0xFFF0000000000000 ∧ F64IsZero 0x8000000000000000 ∧
    F64IsFiniteNonzero 0x0010000000000000 ∧ 1 ≤ f64Exp 0x0010000000000000 ∧
    F64IsFiniteNonzero 0x000FFFFFFFFFFFFF ∧ f64Exp 0x000FFFFFFFFFFFFF = 0 := by decide

theorem witness_MagnitudeCodesOrderTheValues :
    Params.e4m3.legal = true ∧ 0x7D < 0x7E ∧ 0x7E ≤ Params.e4m3.maxfCode := by decide

theorem witness_CatalogCodesHaveTheirValues :
    x16.legal = true ∧ x16.kind = .ieee ∧ 3 ≤ x16.E ∧ Params.e4m3.legal = true ∧ Params.e5m2.legal = true := by decide

/-- For CountsAsZeroExactlyIfToF64GivesZero too. -/
theorem witness_FiniteEncodingsEndAtTheLargestCode :
    Params.e4m3.legal = true ∧ Enc.Fits Params.e4m3.E Params.e4m3.F { s := true, e := 15, m := 6 } := by
  unfold Enc.Fits; decide

theorem witness_ExplicitValueIsThatOfTheTwin :
    x16.legal = true ∧ x16.explicitJ = true ∧ Enc.Fits x16.E x16.M { s := true, e := 30, m := 2047 } ∧
    classifyExplicit x16 { s := true, e := 1, m := 0x400 } = .canonicalNormal ∧
    classifyExplicit x16 { s := true, e := 0, m := 0x3FF } = .canonicalSubnormal ∧
    jBit x16 { s := true, e := 0, m := 0x400 } = true ∧ jBit x16 { s := true, e := 2, m := 0x3FF } = false := by
  unfold Enc.Fits; decide

theorem witness_NanOperandGivesTheCanonicalNan : Params.e4m3.legal = true ∧ F64IsNan 0xFFFFFFFFFFFFFFFF := by decide

theorem witness_InfiniteOperandKeepsItsSign :
    Params.e5m2.legal = true ∧ Params.e5m2.kind ≠ .e4m3 ∧ Params.e4m3.legal = true ∧ Params.e4m3.kind = .e4m3 ∧
    F64IsInf 0xFFF0000000000000 := by decide

theorem witness_ZeroOperandKeepsItsSign : x65.legal = true ∧ F64IsZero 0x8000000000000000 := by decide

/-- 448 and 2^-9, 57344 and 2^-16: the next binary64 value above or below each is rejected. -/
theorem witness_OutOfRangeOperandIsRejected :
    Params.fp16.legal = true ∧ Params.fp16.kind = .ieee ∧
    Params.e4m3.legal = true ∧ Params.e5m2.legal = true ∧
    F64IsFiniteNonzero 0x407C000000000001 ∧ 448 < f64Abs 0x407C000000000001 ∧
    F64IsFiniteNonzero 0x3F5FFFFFFFFFFFFF ∧ f64Abs 0x3F5FFFFFFFFFFFFF < 1 / 2 ^ 9 ∧
    F64IsFiniteNonzero 0x40EC000000000001 ∧ 57344 < f64Abs 0x40EC000000000001 ∧
    F64IsFiniteNonzero 0x3EEFFFFFFFFFFFFF ∧ f64Abs 0x3EEFFFFFFFFFFFFF < 1 / 2 ^ 16 := by decide +kernel

/-- For ShiftNeverBringsBitsIn, GrsMeasureTheDiscardedPart and BitLevelViewOfTheDiscardedPart: a normal and a subnormal
target, and a shift of 55. -/
theorem witness_ShiftNeverBringsBitsIn :
    decodeF64 0x3F10000000000000 = .finite false { sig := 2 ^ 52, exp := -66 } ∧ Params.fp16.legal = true ∧
    biasedExponent .fp16 { sig := 2 ^ 52, exp := -66 } = 1 ∧
    decodeF64 0x3F00000000000000 = .finite false { sig := 2 ^ 52, exp := -67 } ∧
    biasedExponent .fp16 { sig := 2 ^ 52, exp := -67 } = 0 ∧
    decodeF64 0x3E40000000000000 = .finite false { sig := 2 ^ 52, exp := -79 } ∧
    shiftAmount .fp16 { sig := 2 ^ 52, exp := -79 } = 55 := by decide

/-- A carry into the next binade, none, and one into the smallest normal. -/
theorem witness_CarryGoesIntoTheExponent :
    decodeF64 0x3FFFFF0000000000 = .finite false { sig := 0x1FFF0000000000, exp := -52 } ∧
    tentative .fp16 { sig := 0x1FFF0000000000, exp := -52 } +
      (increment .fp16 .rne { sig := 0x1FFF0000000000, exp := -52 }).toNat = 2 ^ (Params.fp16.F + 1) ∧
    tentative .fp16 { sig := 0x1FFF0000000000, exp := -52 } +
      (increment .fp16 .trunc { sig := 0x1FFF0000000000, exp := -52 }).toNat < 2 ^ (Params.fp16.F + 1) ∧
    decodeF64 0x3F0FFC0000000000 = .finite false { sig := 0x1FFC0000000000, exp := -67 } ∧
    biasedExponent .fp16 { sig := 0x1FFC0000000000, exp := -67 } ≤ 0 ∧
    roundedCode .fp16 .rne { sig := 0x1FFC0000000000, exp := -67 } = 2 ^ Params.fp16.F := by decide

theorem rounds_e4m3_max : Rounds .e4m3 0x407C000000000000 :=
  ⟨by decide, show (1 / 2 ^ 9 : ℚ) ≤ f64Abs 0x407C000000000000 ∧ f64Abs 0x407C000000000000 ≤ 448 by decide +kernel⟩

theorem rounds_e4m3_min : Rounds .e4m3 0x3F60000000000000 :=
  ⟨by decide, show (1 / 2 ^ 9 : ℚ) ≤ f64Abs 0x3F60000000000000 ∧ f64Abs 0x3F60000000000000 ≤ 448 by decide +kernel⟩

theorem rounds_e5m2_max : Rounds .e5m2 0x40EC000000000000 :=
  ⟨by decide, show (1 / 2 ^ 16 : ℚ) ≤ f64Abs 0x40EC000000000000 ∧ f64Abs 0x40EC000000000000 ≤ 57344 by decide +kernel⟩

theorem rounds_ieee {p : Params} {a : Word} (hk : p.kind = .ieee) (h : F64IsFiniteNonzero a) : Rounds p a :=
  ⟨h, by simp [InRange, hk]⟩

theorem witness_RneGivesANearestValue :
    Params.e4m3.legal = true ∧ Params.e4m3.subAsZero = false ∧ Rounds .e4m3 0x407C000000000000 ∧
    Rounds .e4m3 0x3F60000000000000 ∧ Params.e5m2.legal = true ∧ Rounds .e5m2 0x40EC000000000000 ∧
    e2m1.legal = true ∧ Rounds e2m1 0x0000000000000001 ∧ Params.fp16.kind = .ieee ∧
    Rounds .fp16 0x40EFFDFFFFFFFFFF ∧
    f64Abs 0x40EFFDFFFFFFFFFF < (2 - 1 / 2 ^ (Params.fp16.F + 1)) * 2 ^ Params.fp16.maxExponent ∧
    Rounds .fp16 0x40EFFE0000000000 ∧
    (2 - 1 / 2 ^ (Params.fp16.F + 1)) * 2 ^ Params.fp16.maxExponent ≤ f64Abs 0x40EFFE0000000000 :=
  ⟨by decide, by decide, rounds_e4m3_max, rounds_e4m3_min, by decide, rounds_e5m2_max, by decide,
    rounds_ieee rfl (by decide), by decide, rounds_ieee rfl (by decide), by decide +kernel,
    rounds_ieee rfl (by decide), by decide +kernel⟩

theorem witness_TruncGivesTheLargestValueNotAbove :
    Params.fp16.legal = true ∧ Params.fp16.subAsZero = false ∧ F64IsZero 0x8000000000000000 ∧
    f64Abs 0x8000000000000000 < 2 ^ (Params.fp16.maxExponent + 1) ∧ Rounds .fp16 0x40EFFFFFFFFFFFFF ∧
    f64Abs 0x40EFFFFFFFFFFFFF < 2 ^ (Params.fp16.maxExponent + 1) ∧
    Params.e4m3.legal = true ∧ Params.e4m3.subAsZero = false ∧ Rounds .e4m3 0x407C000000000000 :=
  ⟨by decide, by decide, by decide, by decide +kernel, rounds_ieee rfl (by decide), by decide +kernel, by decide,
    by decide, rounds_e4m3_max⟩

/-- For RepresentableOperandIsKept and BinaryWordRoundTrips: zero, the largest value, the smallest normal of a flushing
instance. -/
theorem witness_RepresentableOperandIsKept :
    Params.fp16.W ≤ 64 ∧ f64Exp 0x8000000000000000 ≠ 2047 ∧ codeVal .fp16 0 = f64Abs 0x8000000000000000 ∧
    f64Exp 0x407C000000000000 ≠ 2047 ∧ 0x7E ≤ Params.e4m3.maxfCode ∧ codeVal .e4m3 0x7E = f64Abs 0x407C000000000000 ∧
    x16z.legal = true ∧ 0x400 ≤ x16z.maxfCode ∧ codeVal x16z 0x400 = f64Abs 0x3F10000000000000 ∧
    2 ^ x16z.F ≤ 0x400 := by decide +kernel

theorem witness_OverflowSaturates :
    Params.fp16.legal = true ∧ Rounds .fp16 0x40F0000000000000 ∧
    decodeF64 0x40F0000000000000 = .finite (f64Sign 0x40F0000000000000) { sig := 2 ^ 52, exp := -36 } ∧
    Params.fp16.maxfCode < roundedCode .fp16 .trunc { sig := 2 ^ 52, exp := -36 } ∧ Params.fp16.kind = .ieee ∧
    2 ^ (Params.fp16.maxExponent + 1) ≤ f64Abs 0x40F0000000000000 ∧ Params.e4m3.maxfCode < 0x7F :=
  ⟨by decide, rounds_ieee rfl (by decide), by decide, by decide, by decide, by decide +kernel, by decide⟩

theorem witness_FlushIsOfTheRoundedResult :
    fp16z.legal = true ∧ fp16z.subAsZero = true ∧ Rounds fp16z 0x3F0FFE0000000000 ∧
    decodeF64 0x3F0FFE0000000000 = .finite (f64Sign 0x3F0FFE0000000000) { sig := 0x1FFE0000000000, exp := -67 } ∧
    roundedCode fp16z .trunc { sig := 0x1FFE0000000000, exp := -67 } < 2 ^ fp16z.F ∧
    2 ^ fp16z.F ≤ roundedCode fp16z .rne { sig := 0x1FFE0000000000, exp := -67 } ∧
    roundedCode fp16z .rne { sig := 0x1FFE0000000000, exp := -67 } ≤ fp16z.maxfCode :=
  ⟨by decide, by decide, rounds_ieee rfl (by decide), by decide, by decide, by decide, by decide⟩

/-- For ExplicitRoundInsertsTheJBit and JExpandInsertsTheJBit, the widest instance too. -/
theorem witness_ExplicitRoundInsertsTheJBit :
    x16.legal = true ∧ x16.explicitJ = true ∧ x16.W ≤ 64 ∧ x65.legal = true ∧ x65.explicitJ = true := by decide

theorem witness_GrsTellsInexactness :
    Params.e4m3.legal = true ∧ ¬ Rounds .e4m3 0 ∧ Rounds .e4m3 0x407C000000000000 ∧
    decodeF64 0x407C000000000000 = .finite (f64Sign 0x407C000000000000) { sig := 0x1C000000000000, exp := -44 } :=
  ⟨by decide, fun h => absurd h.1 (by decide), rounds_e4m3_max, by decide⟩

theorem witness_ToF64IsExact :
    Params.fp16.legal = true ∧ Params.fp16.explicitJ = false ∧
    (implicitFields .fp16 (slice (0x83FF#64).toNat 0 Params.fp16.W)).code .fp16 ≤ Params.fp16.maxfCode ∧
    classify .fp16 (implicitFields .fp16 (slice (0x83FF#64).toNat 0 Params.fp16.W)) = .subnormal ∧
    Params.fp16.subAsZero = false := by decide

/-- A non-canonical operand of an instance without flush, and the smallest normal value of one with it; also for
CanonAnswersTheCanonicalForm, JDropRemovesTheJBit and ExplicitEncodingRoundTripsToCanon. -/
theorem witness_ToF64IsExactInAnExplicitInstance :
    x16.legal = true ∧ x16.W ≤ 64 ∧ x16.explicitJ = true ∧ (explicitFields x16 (operandW x16 1 0x8200)).e ≠ x16.eOnes ∧
    x16z.legal = true ∧ x16z.explicitJ = true ∧ (explicitFields x16z (operandW x16z 1 0x400)).e ≠ x16z.eOnes ∧
    (2 : ℚ) ^ x16z.minExponent ≤ (valueExpl x16z (explicitFields x16z (operandW x16z 1 0x400))).val ∧
    classifyExplicit x16z (explicitFields x16z (operandW x16z 1 0x400)) ≠ .nan := by decide +kernel

theorem witness_ToF64OfNanAndInfinity :
    classify .e4m3 (implicitFields .e4m3 (slice (0xFF#64).toNat 0 Params.e4m3.W)) = .nan ∧ Params.e4m3.legal = true ∧
    classify .e5m2 (implicitFields .e5m2 (slice (0xFC#64).toNat 0 Params.e5m2.W)) = .inf ∧ Params.e5m2.legal = true ∧
    classifyExplicit x16 (explicitFields x16 (operandW x16 1 0x1FC00)) = .nan ∧ x16.legal = true ∧
    classifyExplicit x16 (explicitFields x16 (operandW x16 1 0x1F800)) = .inf := by decide

theorem witness_ToF64FlushesSubnormals :
    fp16z.legal = true ∧ fp16z.subAsZero = true ∧
    classify fp16z (toF64Source fp16z (operandW fp16z 1 0x83FF)) = .subnormal ∧
    x16z.legal = true ∧ classify x16z (toF64Source x16z (operandW x16z 1 0x801)) = .subnormal := by decide

theorem witness_ImplicitEncodingRoundTrips :
    Params.e5m2.legal = true ∧ Params.e5m2.explicitJ = false ∧
    classify .e5m2 (implicitFields .e5m2 (slice (0xFC#64).toNat 0 Params.e5m2.W)) = .inf ∧
    classify .e5m2 (implicitFields .e5m2 (slice (0x83#64).toNat 0 Params.e5m2.W)) = .subnormal ∧
    Params.e5m2.subAsZero = false := by decide

/-- The clauses of CanonAnswersTheCanonicalForm and JDropRemovesTheJBit, by operand: finite, infinity, NaN with and without
a fraction. -/
theorem witness_JDropRemovesTheJBit :
    x16.legal = true ∧ x16.explicitJ = true ∧
    (explicitFields x16 (operandW x16 4 0x7801)).e ≠ x16.eOnes ∧
    (explicitFields x16 (operandW x16 4 0xF800)).e = x16.eOnes ∧ (explicitFields x16 (operandW x16 4 0xF800)).m = 0 ∧
    (explicitFields x16 (operandW x16 4 0xFA00)).e = x16.eOnes ∧
    (explicitFields x16 (operandW x16 4 0xFA00)).m % 2 ^ x16.F ≠ 0 ∧
    (explicitFields x16 (operandW x16 4 0x1FC00)).e = x16.eOnes ∧
    (explicitFields x16 (operandW x16 4 0x1FC00)).m = 2 ^ x16.F := by decide

/-- For CanonIsIdempotentAndKeepsTheValue and AdapterRoundTrips. -/
theorem witness_CanonIsIdempotentAndKeepsTheValue :
    x16.legal = true ∧ x16.explicitJ = true ∧ Enc.Fits x16.E x16.M { s := true, e := 1, m := 1 } ∧ 1 ≠ x16.eOnes ∧
    Enc.Fits x16.E x16.F { s := false, e := 31, m := 0x200 } := by
  unfold Enc.Fits; decide

theorem witness_AdapterNeitherRoundsNorFlushes :
    Instr.canon.needsExplicitJ = true ∧ x16z.legal = true ∧ x16z.kind = .ieee ∧ Instr.jDrop.needsExplicitJ = true ∧
    Params.e4m3.legal = true ∧ x16z.explicitJ = true ∧
    (explicitFields x16z (operandW x16z 2 0x200)).e ≠ x16z.eOnes ∧
    (implicitFields x16z (operandWI x16z 0x83FF)).e ≠ x16z.eOnes ∧
    (explicitFields x16z (operandW x16z 4 0x801)).e ≠ x16z.eOnes := by decide

end Sys2Proof.Tests
end

section
/-! PROOF. The fields and classes of a binary64 operand (10_state.md rule R37), and the value of an
explicit encoding against its implicit twin (10_state.md rules R34 to R36). -/

namespace Sys2Proof

theorem f64Exp_eq_div_mod (a : Word) : f64Exp a = a.toNat / 2 ^ 52 % 2 ^ 11 := by
  simp [f64Exp, BitVec.extractLsb'_toNat, Nat.shiftRight_eq_div_pow]

theorem f64Frac_eq_mod (a : Word) : f64Frac a = a.toNat % 2 ^ 52 := by
  simp [f64Frac, BitVec.extractLsb'_toNat]

namespace Machine

/-! ## The binary64 operand -/

/-- The split at (11, 52) reads the fields of a binary64 word. -/
theorem unpack_f64 (a : Word) : unpack 11 52 a.toNat = { s := f64Sign a, e := f64Exp a, m := f64Frac a } := by
  rw [f64Exp_eq_div_mod, f64Frac_eq_mod]
  simp [unpack, slice, f64Sign, BitVec.getLsbD]

theorem decodeF64_of_isNan {a : Word} (h : F64IsNan a) : decodeF64 a = .nan := by
  simp [decodeF64, unpack_f64, h.1, h.2]

theorem decodeF64_of_isInf {a : Word} (h : F64IsInf a) : decodeF64 a = .inf (f64Sign a) := by
  simp [decodeF64, unpack_f64, h.1, h.2]

theorem decodeF64_of_isZero {a : Word} (h : F64IsZero a) : decodeF64 a = .zero (f64Sign a) := by
  simp [decodeF64, unpack_f64, h.1, h.2]

/-- A binary64 subnormal: no J bit, and the least exponent. -/
theorem decodeF64_of_subnormal {a : Word} (he : f64Exp a = 0) (hf : f64Frac a ≠ 0) :
    decodeF64 a = .finite (f64Sign a) { sig := f64Frac a, exp := -1074 } := by
  simp [decodeF64, unpack_f64, he, hf]

/-- A binary64 normal: a 53-bit significand with its J bit. -/
theorem decodeF64_of_normal {a : Word} (h0 : f64Exp a ≠ 0) (h1 : f64Exp a ≠ 2047) :
    decodeF64 a = .finite (f64Sign a) { sig := 2 ^ 52 + f64Frac a, exp := (f64Exp a : ℤ) - 1075 } := by
  simp [decodeF64, unpack_f64, h0, h1]

/-- The two shapes of a finite non-zero binary64 word. -/
theorem f64IsFiniteNonzero_cases {a : Word} (h : F64IsFiniteNonzero a) :
    (f64Exp a = 0 ∧ f64Frac a ≠ 0) ∨ (f64Exp a ≠ 0 ∧ f64Exp a ≠ 2047) := by
  obtain ⟨hfin, hnz⟩ := h
  by_cases he : f64Exp a = 0
  · exact .inl ⟨he, fun hf => hnz ⟨he, hf⟩⟩
  · exact .inr ⟨he, hfin⟩

/-- Settles O20: the decoder reads the word's own fields, so each class of rule R37 is one branch of it. -/
theorem operandIsDecomposed : Obligations.OperandIsDecomposed := by
  intro a
  refine ⟨decodeF64_of_isNan, decodeF64_of_isInf, decodeF64_of_isZero, fun h => ?_⟩
  obtain ⟨he, hf⟩ | ⟨h0, h1⟩ := f64IsFiniteNonzero_cases h
  · refine ⟨_, decodeF64_of_subnormal he hf, ?_, fun h1 => by omega, fun _ => ⟨rfl, rfl⟩⟩
    simp [Magnitude.val, f64Abs, he]
  · refine ⟨_, decodeF64_of_normal h0 h1, ?_, fun _ => ⟨rfl, rfl⟩, fun he => absurd he h0⟩
    simp [Magnitude.val, f64Abs, h0]

/-! ## The explicit encoding and its twin -/

section
variable {p : Params} {x : Enc}

/-- The J bit tells whether the mantissa reaches `2^F` (10_state.md rule R27). -/
theorem jBit_iff (h : p.legal = true) (hj : p.explicitJ = true) (hx : x.Fits p.E p.M) :
    jBit p x = true ↔ 2 ^ p.F ≤ x.m := by
  have hm := hx.2
  rw [Params.M_of_explicit h hj] at hm
  rw [jBit, Params.M_of_explicit h hj, Nat.add_sub_cancel]
  exact ⟨Nat.ge_two_pow_of_testBit, fun hge => Nat.testBit_of_two_pow_le_and_two_pow_add_one_gt hge hm⟩

/-- A mantissa with J = 1 is the J bit above the fraction. -/
theorem mantissa_of_jBit (h : p.legal = true) (hj : p.explicitJ = true) (hx : x.Fits p.E p.M) (hJ : jBit p x = true) :
    2 ^ p.F + x.m % 2 ^ p.F = x.m := by
  have hge := (jBit_iff h hj hx).mp hJ
  have hm := hx.2
  rw [Params.M_of_explicit h hj, Nat.pow_succ] at hm
  rw [Nat.mod_eq_sub_mod hge, Nat.mod_eq_of_lt (by omega)]
  omega

/-- A mantissa with J = 0 is the fraction. -/
theorem mantissa_of_not_jBit (h : p.legal = true) (hj : p.explicitJ = true) (hx : x.Fits p.E p.M)
    (hJ : jBit p x = false) : x.m % 2 ^ p.F = x.m := by
  refine Nat.mod_eq_of_lt (Nat.lt_of_not_le fun hge => ?_)
  simp [(jBit_iff h hj hx).mpr hge] at hJ

theorem of_canonicalNormal (h : classifyExplicit p x = .canonicalNormal) : x.e ≠ 0 ∧ jBit p x = true := by
  unfold classifyExplicit at h
  split_ifs at h with _ _ _ he _ hJ
  exact ⟨he, hJ⟩

theorem of_canonicalSubnormal (h : classifyExplicit p x = .canonicalSubnormal) : x.e = 0 ∧ jBit p x = false := by
  unfold classifyExplicit at h
  split_ifs at h with _ _ _ he hJ
  exact ⟨he, Bool.eq_false_iff.mpr hJ⟩

/-- The value of an explicit encoding by the fraction width of its twin. -/
theorem valueExpl_eq (h : p.legal = true) (hj : p.explicitJ = true) (x : Enc) :
    valueExpl p x = { sig := x.m, exp := (max x.e 1 : ℕ) - p.B - p.F } := by
  simp [valueExpl, Params.M_of_explicit h hj]

/-- With J = 1 the twin has the fraction and the exponent field, or 1 where that is 0 (10_state.md rule R36). -/
theorem valueExpl_of_jBit (h : p.legal = true) (hj : p.explicitJ = true) (hx : x.Fits p.E p.M)
    (hJ : jBit p x = true) : valueExpl p x = valueImpl p { s := x.s, e := max x.e 1, m := x.m % 2 ^ p.F } := by
  rw [valueExpl_eq h hj, valueImpl, if_neg (by simp), mantissa_of_jBit h hj hx hJ]

/-- With J = 0 and exponent 0 the twin has exponent 0 too (10_state.md rule R36). -/
theorem valueExpl_of_subnormal (h : p.legal = true) (hj : p.explicitJ = true) (hx : x.Fits p.E p.M)
    (he : x.e = 0) (hJ : jBit p x = false) :
    valueExpl p x = valueImpl p { s := x.s, e := 0, m := x.m % 2 ^ p.F } := by
  rw [valueExpl_eq h hj, valueImpl, if_pos rfl, mantissa_of_not_jBit h hj hx hJ, he]
  rfl

/-- One place further left at the exponent below is the same number. That place is free where J = 0. -/
theorem val_valueExpl_shift (he : 2 ≤ x.e) :
    (valueExpl p { s := x.s, e := x.e - 1, m := 2 * x.m }).val = (valueExpl p x).val := by
  have hexp : ((max x.e 1 : ℕ) : ℤ) - p.B - (p.M - 1) = ((max (x.e - 1) 1 : ℕ) - p.B - (p.M - 1)) + 1 := by omega
  simp only [Magnitude.val, valueExpl]
  rw [hexp, zpow_add_one₀ two_ne_zero]
  push_cast
  ring

end

/-- Settles O24: with J = 1 the significand of the implicit normal is the whole mantissa, with J = 0 the mantissa is the
fraction, so each twin is the same magnitude; one place further left doubles the mantissa and halves the quantum. -/
theorem explicitValueIsThatOfTheTwin : Obligations.ExplicitValueIsThatOfTheTwin := by
  intro p x h hj hx _
  simp only [slice_zero_lo]
  refine ⟨by simp [Magnitude.val, valueExpl], fun hc => ?_, fun hc => ?_, fun he hJ => ?_,
    fun he _ => (val_valueExpl_shift he).symm⟩
  · obtain ⟨he, hJ⟩ := of_canonicalNormal hc
    rw [valueExpl_of_jBit h hj hx hJ, Nat.max_eq_left (Nat.one_le_iff_ne_zero.mpr he)]
  · obtain ⟨he, hJ⟩ := of_canonicalSubnormal hc
    rw [valueExpl_of_subnormal h hj hx he hJ]
  · rw [valueExpl_of_jBit h hj hx hJ, he, Nat.max_eq_right (Nat.zero_le 1)]

end Machine
end Sys2Proof
end

section
/-! PROOF. The control word acts on an answer only through the operation it decodes to, and `sat` only in a kind without
infinities (30_encoding.md rule R59). -/

namespace Sys2Proof

/-- In the decoder `rm` and `sat` stand under op = 000 only. -/
theorem decode_eq_of_op_ne_zero {c d : Ctl} (hop : opField c = opField d) (h0 : opField d ≠ 0) :
    decode c = decode d := by
  have hn : (opField d).toNat ≠ 0 := fun h => h0 (BitVec.eq_of_toNat_eq h)
  unfold decode
  rw [hop]
  split
  · contradiction
  all_goals rfl

/-- Control words that agree in `op` and `rm` decode alike, or to one rounding with the `sat` of each. -/
theorem decode_of_op_eq_of_rm_eq {c d : Ctl} (hop : opField c = opField d) (hrm : rmField c = rmField d) :
    decode c = decode d ∨ ∃ mode, decode c = .instr (roundInstr mode (satField c)) ∧
      decode d = .instr (roundInstr mode (satField d)) := by
  unfold decode
  rw [hop, hrm]
  split
  · split
    · exact .inr ⟨.rne, rfl, rfl⟩
    · exact .inr ⟨.trunc, rfl, rfl⟩
    · exact .inl rfl
  all_goals exact .inl rfl

namespace Machine

/-! ## No answer reads the control word once it is decoded -/

section
variable {s : State}

theorem State.answer_withCtl (s : State) (c : Ctl) (r : Except Err (Word × Code3)) :
    State.answer { s with ctl := c } r = { s.answer r with ctl := c } := by
  obtain ⟨y, g, rfl, -⟩ | ⟨e, rfl, -⟩ := s.answer_cases r <;> rfl

theorem onInstance_withCtl (h : s.params.legal = true) (c : Ctl) {k k' : Params → State}
    (hk : k' s.params = { k s.params with ctl := c }) :
    ∃ t, onInstance s k = .next t ∧ onInstance { s with ctl := c } k' = .next { t with ctl := c } :=
  ⟨_, onInstance_of_legal h k, hk ▸ onInstance_of_legal (s := { s with ctl := c }) h k'⟩

theorem onExplicitInstance_withCtl (h : s.params.legal = true) (c : Ctl) {k k' : Params → State}
    (hk : k' s.params = { k s.params with ctl := c }) :
    ∃ t, onExplicitInstance s k = .next t ∧
      onExplicitInstance { s with ctl := c } k' = .next { t with ctl := c } := by
  refine onInstance_withCtl h c ?_
  cases s.params.explicitJ with
  | true => exact hk
  | false => rfl

/-- Under legal parameters every operation answers, and alike whatever control word stands on the ports. -/
theorem exec_withCtl (h : s.params.legal = true) (c : Ctl) (i : Instr) :
    ∃ t, exec i s = .next t ∧ exec i { s with ctl := c } = .next { t with ctl := c } := by
  cases i with
  | roundRne sat => unfold exec execRoundRne; exact onInstance_withCtl h c (s.answer_withCtl c _)
  | roundTrunc sat => unfold exec execRoundTrunc; exact onInstance_withCtl h c (s.answer_withCtl c _)
  | toF64 => unfold exec execToF64; exact onInstance_withCtl h c (by rfl)
  | canon => unfold exec execCanon; exact onExplicitInstance_withCtl h c (by rfl)
  | jExpand => unfold exec execJExpand; exact onExplicitInstance_withCtl h c (by rfl)
  | jDrop => unfold exec execJDrop; exact onExplicitInstance_withCtl h c (by rfl)

theorem execReject_withCtl (h : s.params.legal = true) (c : Ctl) (r : Reject) :
    ∃ t, execReject r s = .next t ∧ execReject r { s with ctl := c } = .next { t with ctl := c } :=
  onInstance_withCtl h c (by rfl)

end

/-- The answer to a decoded control word, apart from the word on the ports. -/
def answerDecoded (d : Decoded) (s : State) : Host.Outcome State Fault Refusal :=
  match d with
  | .instr i => exec i s
  | .reject r => execReject r s

theorem step_eq_answerDecoded (s : State) : step s = answerDecoded (decode s.ctl) s := by
  unfold step
  obtain ⟨i, hd, h⟩ | ⟨r, hd, h⟩ := answerRequest_cases s <;> rw [h, hd] <;> rfl

theorem answerDecoded_withCtl {s : State} (h : s.params.legal = true) (c : Ctl) (d : Decoded) :
    ∃ t, answerDecoded d s = .next t ∧ answerDecoded d { s with ctl := c } = .next { t with ctl := c } := by
  cases d with
  | instr i => exact exec_withCtl h c i
  | reject r => exact execReject_withCtl h c r

/-! ## `sat` in a kind with infinities -/

/-- Only an infinity without a code of its own asks for `sat` (40_rounding.md rule R66). -/
theorem roundCore_sat_irrelevant {p : Params} (h : p.hasInf = true) (mode : RoundMode) (sat sat' : Bool) (x : F64) :
    roundCore p mode sat x = roundCore p mode sat' x := by
  cases x with
  | inf s => simp [roundCore, h]
  | nan => rfl
  | zero s => rfl
  | finite s mag => rfl

theorem exec_roundInstr_sat_irrelevant {s : State} (h : s.params.hasInf = true) (mode : RoundMode) (sat sat' : Bool) :
    exec (roundInstr mode sat) s = exec (roundInstr mode sat') s := by
  have hr : ∀ mode, roundAnswer s.params mode sat s.a = roundAnswer s.params mode sat' s.a := fun mode => by
    rw [roundAnswer, roundAnswer, roundCore_sat_irrelevant h mode sat sat']
  cases mode with
  | rne => simp only [roundInstr, exec, execRoundRne, onInstance, hr]
  | trunc => simp only [roundInstr, exec, execRoundTrunc, onInstance, hr]

/-- The fields that an operation does not read leave its answer alone. -/
theorem answerDecoded_decode_eq {s : State} {c d : Ctl} (hop : opField c = opField d)
    (hfree : opField d ≠ 0 ∨ (rmField c = rmField d ∧ s.params.hasInf = true)) :
    answerDecoded (decode c) s = answerDecoded (decode d) s := by
  obtain h0 | ⟨hrm, hinf⟩ := hfree
  · rw [decode_eq_of_op_ne_zero hop h0]
  · obtain heq | ⟨mode, hc, hd⟩ := decode_of_op_eq_of_rm_eq hop hrm
    · rw [heq]
    · rw [hc, hd]
      exact exec_roundInstr_sat_irrelevant hinf mode _ _

/-- Settles O5: the two words decode to operations with one answer, and that answer does not read the word again. -/
theorem unreadFieldsAreDontCare : Obligations.UnreadFieldsAreDontCare := by
  intro s c hlegal hop hfree
  obtain ⟨t, ht, ht'⟩ := answerDecoded_withCtl hlegal c (decode c)
  refine ⟨t, { t with ctl := c }, ?_, ?_, rfl, rfl, rfl⟩
  · rw [step_eq_answerDecoded, ← answerDecoded_decode_eq hop hfree, ht]
  · rw [step_eq_answerDecoded, ht']

end Machine
end Sys2Proof
end

section
/-! PROOF. How ROUND answers on the ports, the words of its results, and the operands it does not round: NaN, infinity and
zero (40_rounding.md rules R62 to R67 and R77). -/

namespace Sys2Proof

theorem Params.hasInf_of_kind {p : Params} (hk : p.kind ≠ .e4m3) : p.hasInf = true := by
  unfold Params.hasInf
  cases hkind : p.kind with
  | ieee => rfl
  | e4m3 => exact absurd hkind hk
  | e5m2 => rfl

namespace Machine

/-! ## ROUND on the ports -/

section
variable {s : State}

/-- ROUND under either mode is one answer (40_rounding.md rules R62 and R63). -/
theorem exec_roundInstr (h : s.params.legal = true) (mode : RoundMode) (sat : Bool) :
    exec (roundInstr mode sat) s = .next (s.answer (roundAnswer s.params mode sat s.a)) := by
  cases mode with
  | rne => exact onInstance_of_legal h fun p => s.answer (roundAnswer p .rne sat s.a)
  | trunc => exact onInstance_of_legal h fun p => s.answer (roundAnswer p .trunc sat s.a)

theorem exec_roundInstr_of_ok {mode : RoundMode} {sat : Bool} {r : Enc} {g : Code3} (h : s.params.legal = true)
    (hr : roundCore s.params mode sat (decodeF64 s.a) = .ok (r, g)) :
    exec (roundInstr mode sat) s = .next (s.respond (formatWord s.params r) g) := by
  simp [exec_roundInstr h, roundAnswer, hr]

theorem exec_roundInstr_of_error {mode : RoundMode} {sat : Bool} {e : Err} (h : s.params.legal = true)
    (hr : roundCore s.params mode sat (decodeF64 s.a) = .error e) :
    exec (roundInstr mode sat) s = .next (s.raise e) := by
  simp [exec_roundInstr h, roundAnswer, hr]

end

/-! ## The word of a result without a J bit of 1 -/

section
variable {p : Params}

/-- The encoding of a code written as its exponent field and fraction. -/
theorem ofCode_mul_add {e m : Nat} (s : Bool) (he : e < 2 ^ p.E) (hm : m < 2 ^ p.F) :
    Enc.ofCode p s (e * 2 ^ p.F + m) = { s := s, e := e, m := m } :=
  ofCode_code (x := { s := s, e := e, m := m }) ⟨he, hm⟩

theorem ofCode_zero (p : Params) (s : Bool) : Enc.ofCode p s 0 = { s := s, e := 0, m := 0 } := by
  simp [Enc.ofCode, slice]

theorem ofCode_infCode (p : Params) (s : Bool) : Enc.ofCode p s p.infCode = { s := s, e := p.eOnes, m := 0 } :=
  ofCode_mul_add s (by have := p.eOnes_succ; omega) (Nat.two_pow_pos _)

/-- The NaN of a kind whose all-ones exponent field holds no finite value (10_state.md rule R29). -/
theorem ofCode_nanCode (h : p.legal = true) (hk : p.kind ≠ .e4m3) (s : Bool) :
    Enc.ofCode p s p.nanCode = { s := s, e := p.eOnes, m := 1 } := by
  have hcode : p.nanCode = p.eOnes * 2 ^ p.F + 1 := by
    unfold Params.nanCode
    cases hkind : p.kind with
    | ieee => rfl
    | e4m3 => exact absurd hkind hk
    | e5m2 => rfl
  rw [hcode]
  exact ofCode_mul_add s (by have := p.eOnes_succ; omega)
    (Nat.one_lt_two_pow (Nat.one_le_iff_ne_zero.mp (p.legal_bounds h).2.2.1))

/-- No J bit is inserted at exponent field 0 or all ones (41_jbit_adapter.md rule R93). -/
theorem jInsert_of_no_jBit {x : Enc} (hx : x.e = 0 ∨ x.e = p.eOnes) : jInsert p x = x := by
  have hout : ¬ (1 ≤ x.e ∧ x.e ≤ 2 ^ p.E - 2) := by
    have := p.eOnes_succ
    obtain h0 | h1 := hx <;> omega
  simp [jInsert, hout]

theorem formatWord_of_no_jBit {x : Enc} (hx : x.e = 0 ∨ x.e = p.eOnes) :
    formatWord p x = BitVec.ofNat 64 (pack p.E p.M x) := by
  unfold formatWord
  cases hj : p.explicitJ with
  | true => simp only [if_true, jInsert_of_no_jBit hx, explicitWord, resultWord]
  | false => simp only [Bool.false_eq_true, if_false, implicitWord, resultWord, Params.F_of_implicit hj]

theorem formatWord_zero (p : Params) (s : Bool) :
    formatWord p (Enc.ofCode p s 0) = BitVec.ofNat 64 (s.toNat * 2 ^ (p.E + p.M)) := by
  rw [ofCode_zero, formatWord_of_no_jBit (.inl rfl)]
  simp [pack]

theorem formatWord_infCode (p : Params) (s : Bool) :
    formatWord p (Enc.ofCode p s p.infCode) = BitVec.ofNat 64 (s.toNat * 2 ^ (p.E + p.M) + p.eOnes * 2 ^ p.M) := by
  rw [ofCode_infCode, formatWord_of_no_jBit (.inr rfl)]
  simp [pack]

theorem formatWord_nanCode (h : p.legal = true) (hk : p.kind ≠ .e4m3) :
    formatWord p (Enc.ofCode p false p.nanCode) = BitVec.ofNat 64 (p.eOnes * 2 ^ p.M + 1) := by
  rw [ofCode_nanCode h hk, formatWord_of_no_jBit (.inr rfl)]
  simp [pack]

theorem formatWord_maxfCode_e4m3 (hp : p = .e4m3) (s : Bool) :
    formatWord p (Enc.ofCode p s p.maxfCode) = if s then 0xFE else 0x7E := by
  subst hp
  cases s <;> rfl

/-- The canonical NaN as rule R29 of 10_state.md writes it, and in an explicit layout with the
mantissa field's width. -/
theorem formatWord_canonicalNan (h : p.legal = true) :
    formatWord p (Enc.ofCode p false p.nanCode) =
      BitVec.ofNat 64 (if p.explicitJ then p.eOnes * 2 ^ p.M + 1 else p.nanCode) := by
  by_cases hk : p.kind = .e4m3
  · rw [Params.legal_e4m3 h hk]
    decide
  · rw [formatWord_nanCode h hk]
    cases hj : p.explicitJ with
    | true => rfl
    | false => cases hkind : p.kind <;> simp_all [Params.nanCode, Params.F_of_implicit hj]

end

/-! ## NaN, infinity and zero -/

/-- Settles O25: `round_core` answers the canonical NaN whatever the mode, and no J bit is inserted in it. -/
theorem nanOperandGivesTheCanonicalNan : Obligations.NanOperandGivesTheCanonicalNan := by
  intro mode sat s h ha
  rw [exec_roundInstr_of_ok h (by rw [decodeF64_of_isNan ha]; rfl), formatWord_canonicalNan h]
  rfl

/-- Settles O26: only E4M3 has no infinity, and there `sat` chooses between the largest finite value and the error. -/
theorem infiniteOperandKeepsItsSign : Obligations.InfiniteOperandKeepsItsSign := by
  intro mode sat s h ha
  have hd := decodeF64_of_isInf ha
  refine ⟨fun hk => ?_, fun hk hsat => ?_, fun hk hsat => ?_⟩
  · have hr : roundCore s.params mode sat (decodeF64 s.a) =
        .ok (Enc.ofCode s.params (f64Sign s.a) s.params.infCode, 0) := by
      simp [hd, roundCore, Params.hasInf_of_kind hk]
    rw [exec_roundInstr_of_ok h hr, formatWord_infCode]
    rfl
  · have hr : roundCore s.params mode sat (decodeF64 s.a) =
        .ok (Enc.ofCode s.params (f64Sign s.a) s.params.maxfCode, 0) := by
      simp [hd, roundCore, Params.hasInf, hk, hsat]
    rw [exec_roundInstr_of_ok h hr, formatWord_maxfCode_e4m3 (Params.legal_e4m3 h hk)]
    rfl
  · have hr : roundCore s.params mode sat (decodeF64 s.a) = .error .infUnsupported := by
      simp [hd, roundCore, Params.hasInf, hk, hsat]
    rw [exec_roundInstr_of_error h hr]
    rfl

/-- Settles O27: magnitude code 0 has exponent field 0, so its word is the sign alone. -/
theorem zeroOperandKeepsItsSign : Obligations.ZeroOperandKeepsItsSign := by
  intro mode sat s h ha
  rw [exec_roundInstr_of_ok h (by rw [decodeF64_of_isZero ha]; rfl), formatWord_zero]
  rfl

end Machine
end Sys2Proof
end

section
/-! PROOF. The shift of a rounding and the bits it discards (40_rounding.md rules R69 to R73), on natural numbers. -/

namespace Sys2Proof

/-- The bias of legal parameters is at most that of binary64. -/
theorem Params.B_le {p : Params} (h : p.legal = true) : p.B ≤ 1023 := by
  have hpow : 2 ^ (p.E - 1) ≤ 2 ^ 10 := Nat.pow_le_pow_right (by decide) (by have := p.legal_bounds h; omega)
  simp only [Params.B]
  omega

namespace Machine

/-! ## Significand and exponent of a finite operand -/

/-- What rule R37 of 10_state.md says of a finite non-zero operand's magnitude: 53 bits, all of them in use unless the
exponent is the least one. -/
structure IsF64Magnitude (x : Magnitude) : Prop where
  pos : 0 < x.sig
  lt : x.sig < 2 ^ 53
  exp_ge : -1074 ≤ x.exp
  normal_or_least : 2 ^ 52 ≤ x.sig ∨ x.exp = -1074

theorem f64Frac_lt (a : Word) : f64Frac a < 2 ^ 52 := (a.extractLsb' 0 52).isLt

/-- A finite operand is a subnormal or a normal binary64 word. -/
theorem decodeF64_eq_finite {a : Word} {sgn : Bool} {x : Magnitude} (h : decodeF64 a = .finite sgn x) :
    sgn = f64Sign a ∧
    ((f64Exp a = 0 ∧ f64Frac a ≠ 0 ∧ x = { sig := f64Frac a, exp := -1074 }) ∨
      (f64Exp a ≠ 0 ∧ f64Exp a ≠ 2047 ∧ x = { sig := 2 ^ 52 + f64Frac a, exp := (f64Exp a : ℤ) - 1075 })) := by
  by_cases h1 : f64Exp a = 2047
  · by_cases hf : f64Frac a = 0
    · simp [decodeF64_of_isInf ⟨h1, hf⟩] at h
    · simp [decodeF64_of_isNan ⟨h1, hf⟩] at h
  by_cases h0 : f64Exp a = 0
  · by_cases hf : f64Frac a = 0
    · simp [decodeF64_of_isZero ⟨h0, hf⟩] at h
    · rw [decodeF64_of_subnormal h0 hf, F64.finite.injEq] at h
      exact ⟨h.1.symm, .inl ⟨h0, hf, h.2.symm⟩⟩
  · rw [decodeF64_of_normal h0 h1, F64.finite.injEq] at h
    exact ⟨h.1.symm, .inr ⟨h0, h1, h.2.symm⟩⟩

theorem isF64Magnitude_of_decodeF64 {a : Word} {sgn : Bool} {x : Magnitude} (h : decodeF64 a = .finite sgn x) :
    IsF64Magnitude x := by
  have hlt := f64Frac_lt a
  obtain ⟨-, ⟨-, hf, rfl⟩ | ⟨h0, -, rfl⟩⟩ := decodeF64_eq_finite h
  · exact ⟨Nat.pos_of_ne_zero hf, by dsimp only; omega, le_rfl, .inr rfl⟩
  · exact ⟨by dsimp only; omega, by dsimp only; omega, by dsimp only; omega, .inl (Nat.le_add_right _ _)⟩

/-- A binary64 normal has its exponent field and a 53-bit significand. -/
theorem decodeF64_eq_finite_of_normal {a : Word} {sgn : Bool} {x : Magnitude} (h : decodeF64 a = .finite sgn x)
    (h1 : 1 ≤ f64Exp a) : x.sig = 2 ^ 52 + f64Frac a := by
  obtain ⟨-, ⟨h0, -, -⟩ | ⟨-, -, rfl⟩⟩ := decodeF64_eq_finite h
  · omega
  · rfl

section
variable {p : Params} {x : Magnitude}

theorem bitlen_pos (h : 0 < x.sig) : 0 < bitlen x.sig := by simp [bitlen_of_pos h]

/-- A 53-bit significand leads by 52 places. -/
theorem leadExponent_of_normal (hx : IsF64Magnitude x) (hn : 2 ^ 52 ≤ x.sig) : leadExponent x = x.exp + 52 := by
  have hle : bitlen x.sig ≤ 53 := bitlen_le_iff.mpr hx.lt
  have hge : ¬ bitlen x.sig ≤ 52 := fun hle => absurd (bitlen_le_iff.mp hle) (Nat.not_lt.mpr hn)
  simp only [leadExponent]
  omega

/-! ## The shift -/

theorem quantumExponent_of_normal (ht : 1 ≤ biasedExponent p x) : quantumExponent p x = leadExponent x - p.F := by
  simp only [biasedExponent] at ht
  simp only [quantumExponent]
  omega

theorem quantumExponent_of_subnormal (ht : biasedExponent p x ≤ 0) : quantumExponent p x = 1 - (p.B : ℤ) - p.F := by
  simp only [biasedExponent] at ht
  simp only [quantumExponent]
  omega

/-- The quantum by the exponent field of the tentative result, which is counted from 1. -/
theorem quantumExponent_eq (p : Params) (x : Magnitude) :
    quantumExponent p x = ((max (biasedExponent p x - 1) 0).toNat : ℤ) + 1 - p.B - p.F := by
  simp only [quantumExponent, biasedExponent]
  omega

/-- The quantum is never below the operand's own: 53 bits hold every fraction, and no bias exceeds binary64's. -/
theorem exp_le_quantumExponent (h : p.legal = true) (hx : IsF64Magnitude x) : x.exp ≤ quantumExponent p x := by
  have hB := Params.B_le h
  obtain ⟨-, -, -, hF⟩ := p.legal_bounds h
  obtain hn | hq := hx.normal_or_least
  · have hlead := leadExponent_of_normal hx hn
    simp only [quantumExponent]
    omega
  · simp only [quantumExponent]
    omega

theorem shiftAmount_eq (h : p.legal = true) (hx : IsF64Magnitude x) :
    (shiftAmount p x : ℤ) = quantumExponent p x - x.exp :=
  Int.toNat_of_nonneg (by have := exp_le_quantumExponent h hx; simp only [shiftInt]; omega)

/-- For a normal target the shift leaves `F + 1` bits. -/
theorem bitlen_of_normal (h : p.legal = true) (hx : IsF64Magnitude x) (ht : 1 ≤ biasedExponent p x) :
    bitlen x.sig = shiftAmount p x + p.F + 1 := by
  have hsh := shiftAmount_eq h hx
  rw [quantumExponent_of_normal ht, leadExponent] at hsh
  omega

/-- For a subnormal target the shift leaves at most `F` bits. -/
theorem bitlen_le_of_subnormal (h : p.legal = true) (hx : IsF64Magnitude x) (ht : biasedExponent p x ≤ 0) :
    bitlen x.sig ≤ shiftAmount p x + p.F := by
  have hsh := shiftAmount_eq h hx
  rw [quantumExponent_of_subnormal ht] at hsh
  simp only [biasedExponent, leadExponent] at ht
  omega

theorem tentative_eq_div (p : Params) (x : Magnitude) : tentative p x = x.sig / 2 ^ shiftAmount p x :=
  Nat.shiftRight_eq_div_pow _ _

theorem tentative_lt {n : Nat} (hle : bitlen x.sig ≤ shiftAmount p x + n) : tentative p x < 2 ^ n := by
  rw [tentative_eq_div]
  exact Nat.div_lt_of_lt_mul (by rw [← Nat.pow_add]; exact bitlen_le_iff.mp hle)

theorem tentative_lt_of_subnormal (h : p.legal = true) (hx : IsF64Magnitude x) (ht : biasedExponent p x ≤ 0) :
    tentative p x < 2 ^ p.F :=
  tentative_lt (bitlen_le_of_subnormal h hx ht)

theorem tentative_lt_of_legal (h : p.legal = true) (hx : IsF64Magnitude x) : tentative p x < 2 ^ (p.F + 1) := by
  refine tentative_lt ?_
  obtain ht | ht := Int.lt_or_le 0 (biasedExponent p x)
  · exact (bitlen_of_normal h hx ht).le
  · exact (bitlen_le_of_subnormal h hx ht).trans (by omega)

/-- For a normal target the leading one stays. -/
theorem le_tentative_of_normal (h : p.legal = true) (hx : IsF64Magnitude x) (ht : 1 ≤ biasedExponent p x) :
    2 ^ p.F ≤ tentative p x := by
  rw [tentative_eq_div, Nat.le_div_iff_mul_le (Nat.two_pow_pos _), ← Nat.pow_add]
  calc 2 ^ (p.F + shiftAmount p x) = 2 ^ (bitlen x.sig - 1) := by rw [bitlen_of_normal h hx ht]; congr 1; omega
    _ ≤ x.sig := two_pow_bitlen_le hx.pos

/-! ## The discarded bits -/

/-- Where there is no third discarded bit, nothing stands below it. -/
theorem stickyBit_iff (sig sh : Nat) : stickyBit sig sh = true ↔ sig % 2 ^ (sh - 2) ≠ 0 := by
  by_cases hsh : 3 ≤ sh
  · simp [stickyBit, hsh]
  · simp [stickyBit, hsh, show sh - 2 = 0 by omega, Nat.mod_one]

/-- One more bit of a remainder. -/
theorem mod_two_pow_succ_eq_testBit (v n : Nat) : v % 2 ^ (n + 1) = v % 2 ^ n + 2 ^ n * (v.testBit n).toNat := by
  rw [Nat.mod_pow_succ, Nat.toNat_testBit]

theorem guardBit_succ (sig n : Nat) : guardBit sig (n + 1) = sig.testBit n := by simp [guardBit]

theorem roundBit_add_two (sig n : Nat) : roundBit sig (n + 2) = sig.testBit n := by simp [roundBit]

theorem roundBit_of_lt_two {sh : Nat} (hsh : sh < 2) (sig : Nat) : roundBit sig sh = false := by
  simp [roundBit, Nat.not_le.mpr hsh]

/-- The discarded part in quarters of a quantum: G counts two, R one, and the bits below R the rest. -/
theorem four_mul_discarded (sig sh : Nat) :
    4 * (sig % 2 ^ sh) =
      (2 * (guardBit sig sh).toNat + (roundBit sig sh).toNat) * 2 ^ sh + 4 * (sig % 2 ^ (sh - 2)) := by
  match sh with
  | 0 => simp [guardBit, roundBit, Nat.mod_one]
  | 1 =>
    rw [mod_two_pow_succ_eq_testBit, guardBit_succ, roundBit_of_lt_two (by decide), pow_zero, Nat.mod_one,
      Bool.toNat_false]
    ring
  | n + 2 =>
    rw [mod_two_pow_succ_eq_testBit, mod_two_pow_succ_eq_testBit, guardBit_succ, roundBit_add_two, Nat.add_sub_cancel]
    ring

@[simp] theorem grsBits_getElem_two (g r s : Bool) : (grsBits g r s)[2] = g := by revert g r s; decide
@[simp] theorem grsBits_getElem_one (g r s : Bool) : (grsBits g r s)[1] = r := by revert g r s; decide
@[simp] theorem grsBits_getElem_zero (g r s : Bool) : (grsBits g r s)[0] = s := by revert g r s; decide

theorem roundGrs_guard (p : Params) (x : Magnitude) : (roundGrs p x)[2] = guardBit x.sig (shiftAmount p x) :=
  grsBits_getElem_two _ _ _

theorem roundGrs_round (p : Params) (x : Magnitude) : (roundGrs p x)[1] = roundBit x.sig (shiftAmount p x) :=
  grsBits_getElem_one _ _ _

theorem roundGrs_sticky (p : Params) (x : Magnitude) : (roundGrs p x)[0] = stickyBit x.sig (shiftAmount p x) :=
  grsBits_getElem_zero _ _ _

/-! ## Against the exact value -/

/-- The leading one bounds the value (40_rounding.md rule R69). -/
theorem two_zpow_leadExponent_le (hpos : 0 < x.sig) : (2 : ℚ) ^ leadExponent x ≤ x.val := by
  have hsig : (2 : ℚ) ^ (bitlen x.sig - 1) ≤ x.sig := by exact_mod_cast two_pow_bitlen_le hpos
  have hlead : leadExponent x = ((bitlen x.sig - 1 : ℕ) : ℤ) + x.exp := by
    have := bitlen_pos hpos
    simp only [leadExponent]
    omega
  rw [hlead, zpow_add₀ two_ne_zero, zpow_natCast, Magnitude.val]
  gcongr

theorem val_lt_two_zpow (x : Magnitude) : x.val < 2 ^ (leadExponent x + 1) := by
  have hsig : (x.sig : ℚ) < 2 ^ bitlen x.sig := by exact_mod_cast lt_two_pow_bitlen x.sig
  have hlead : leadExponent x + 1 = (bitlen x.sig : ℤ) + x.exp := by
    simp only [leadExponent]
    omega
  rw [hlead, zpow_add₀ two_ne_zero, zpow_natCast, Magnitude.val]
  gcongr

/-- The operand in quanta. -/
theorem val_div_quantum (h : p.legal = true) (hx : IsF64Magnitude x) :
    x.val / 2 ^ quantumExponent p x = (x.sig : ℚ) / (2 ^ shiftAmount p x : ℕ) := by
  have hk : quantumExponent p x = (shiftAmount p x : ℤ) + x.exp := by
    rw [shiftAmount_eq h hx]
    ring
  rw [hk, zpow_add₀ two_ne_zero, zpow_natCast, Magnitude.val, Nat.cast_pow, Nat.cast_ofNat,
    mul_div_mul_right _ _ (by positivity)]

/-- The part of a quantum that lies below R. -/
def belowRound (p : Params) (x : Magnitude) : ℚ := (x.sig % 2 ^ (shiftAmount p x - 2) : ℕ) / (2 ^ shiftAmount p x : ℕ)

theorem belowRound_nonneg (p : Params) (x : Magnitude) : 0 ≤ belowRound p x := by
  unfold belowRound
  positivity

theorem belowRound_pos_iff (p : Params) (x : Magnitude) :
    0 < belowRound p x ↔ stickyBit x.sig (shiftAmount p x) = true := by
  rw [stickyBit_iff, belowRound, div_pos_iff_of_pos_right (by positivity), Nat.cast_pos, Nat.pos_iff_ne_zero]

/-- Below R less than a quarter is left: with two or more bits discarded by the size of the remainder, and else it is 0. -/
theorem belowRound_lt (p : Params) (x : Magnitude) : belowRound p x < 1 / 4 := by
  have hquarter : 4 * (x.sig % 2 ^ (shiftAmount p x - 2)) < 2 ^ shiftAmount p x := by
    by_cases hsh : 2 ≤ shiftAmount p x
    · calc 4 * (x.sig % 2 ^ (shiftAmount p x - 2)) < 4 * 2 ^ (shiftAmount p x - 2) :=
            Nat.mul_lt_mul_of_pos_left (Nat.mod_lt _ (Nat.two_pow_pos _)) (by decide)
        _ = 2 ^ shiftAmount p x := by
            rw [show 4 = 2 ^ 2 by rfl, ← Nat.pow_add]
            congr 1
            omega
    · simp [show shiftAmount p x - 2 = 0 by omega, Nat.mod_one]
  have hcast : (4 : ℚ) * (x.sig % 2 ^ (shiftAmount p x - 2) : ℕ) < (2 ^ shiftAmount p x : ℕ) := by
    exact_mod_cast hquarter
  rw [belowRound, div_lt_iff₀ (by positivity)]
  linarith

/-- The operand in quanta is Q and the discarded bits at their places (40_rounding.md rule R70). -/
theorem val_div_quantum_eq (h : p.legal = true) (hx : IsF64Magnitude x) :
    x.val / 2 ^ quantumExponent p x = tentative p x + ((guardBit x.sig (shiftAmount p x)).toNat : ℚ) / 2 +
      ((roundBit x.sig (shiftAmount p x)).toNat : ℚ) / 4 + belowRound p x := by
  have hpow : ((2 ^ shiftAmount p x : ℕ) : ℚ) ≠ 0 := by positivity
  have hdiv : (x.sig : ℚ) =
      2 ^ shiftAmount p x * (x.sig / 2 ^ shiftAmount p x : ℕ) + (x.sig % 2 ^ shiftAmount p x : ℕ) := by
    exact_mod_cast (Nat.div_add_mod x.sig (2 ^ shiftAmount p x)).symm
  have hmod := congrArg (Nat.cast (R := ℚ)) (four_mul_discarded x.sig (shiftAmount p x))
  push_cast at hmod
  rw [val_div_quantum h hx, tentative_eq_div, belowRound, div_eq_iff hpow, add_mul _ (_ / _), div_mul_cancel₀ _ hpow]
  push_cast
  linear_combination hdiv + hmod / 4

end

/-! ## The rules -/

/-- Settles O29: the significand has `bitlen` bits, and the shift is at least 0 because binary64 has no finer quantum than
the target. -/
theorem shiftNeverBringsBitsIn : Obligations.ShiftNeverBringsBitsIn := by
  intro p a sgn x h hd
  have hx := isF64Magnitude_of_decodeF64 hd
  exact ⟨two_zpow_leadExponent_le hx.pos, val_lt_two_zpow x, rfl, quantumExponent_of_normal,
    quantumExponent_of_subnormal, shiftAmount_eq h hx⟩

/-- Settles O30: Q is the quotient of the significand, and ρ is the remainder below R in quanta. -/
theorem grsMeasureTheDiscardedPart : Obligations.GrsMeasureTheDiscardedPart := by
  intro p a sgn x h hd
  have hx := isF64Magnitude_of_decodeF64 hd
  refine ⟨?_, belowRound p x, belowRound_nonneg p x, belowRound_lt p x, ?_, ?_⟩
  · rw [val_div_quantum h hx, Rat.floor_natCast_div_natCast, tentative_eq_div]
    rfl
  · simp only [Nat.cast_ofNat, roundGrs_guard, roundGrs_round, val_div_quantum_eq h hx]
    ring
  · rw [roundGrs_sticky, belowRound_pos_iff]

section
variable {p : Params} {x : Magnitude}

/-- A normal operand in a normal target loses the `52 - F` low bits of its fraction (40_rounding.md rule R71). -/
theorem shiftAmount_of_normal (h : p.legal = true) (hx : IsF64Magnitude x) (hn : 2 ^ 52 ≤ x.sig)
    (ht : 1 ≤ biasedExponent p x) : shiftAmount p x = 52 - p.F := by
  have hsh := shiftAmount_eq h hx
  rw [quantumExponent_of_normal ht, leadExponent_of_normal hx hn] at hsh
  omega

theorem shiftAmount_of_subnormal (h : p.legal = true) (hx : IsF64Magnitude x) (hn : 2 ^ 52 ≤ x.sig)
    (ht : biasedExponent p x ≤ 0) : (shiftAmount p x : ℤ) = 52 - p.F + (1 - biasedExponent p x) := by
  rw [shiftAmount_eq h hx, quantumExponent_of_subnormal ht, biasedExponent, leadExponent_of_normal hx hn]
  ring

/-- S is the OR of the bits three places and more below Q. -/
theorem stickyBit_iff_exists_testBit (sig sh : Nat) :
    stickyBit sig sh = true ↔ ∃ i, i + 3 ≤ sh ∧ sig.testBit i = true := by
  have hbit : ∀ i, (sig % 2 ^ (sh - 2)).testBit i = true ↔ i + 3 ≤ sh ∧ sig.testBit i = true := fun i => by
    rw [Nat.testBit_mod_two_pow, Bool.and_eq_true, decide_eq_true_eq]
    exact and_congr_left fun _ => by omega
  rw [stickyBit_iff]
  constructor
  · intro hne
    obtain ⟨i, hi⟩ := Nat.exists_testBit_of_ne_zero hne
    exact ⟨i, (hbit i).mp hi⟩
  · rintro ⟨i, hi⟩ hzero
    simpa [hzero] using (hbit i).mpr hi

/-- A shift of 55 or more moves all 53 bits below R. -/
theorem discarded_of_shift_ge (hx : IsF64Magnitude x) (hsh : 55 ≤ shiftAmount p x) :
    tentative p x = 0 ∧ roundGrs p x = 0b001#3 := by
  have hlt : ∀ n, 53 ≤ n → x.sig < 2 ^ n := fun n hn => hx.lt.trans_le (Nat.pow_le_pow_right (by decide) hn)
  have hg : guardBit x.sig (shiftAmount p x) = false := by
    simp [guardBit, Nat.testBit_lt_two_pow (hlt (shiftAmount p x - 1) (by omega))]
  have hr : roundBit x.sig (shiftAmount p x) = false := by
    simp [roundBit, Nat.testBit_lt_two_pow (hlt (shiftAmount p x - 2) (by omega))]
  have hs : stickyBit x.sig (shiftAmount p x) = true := by
    rw [stickyBit_iff, Nat.mod_eq_of_lt (hlt _ (by omega))]
    exact hx.pos.ne'
  refine ⟨?_, by rw [roundGrs, discardedBits, hg, hr, hs]; rfl⟩
  rw [tentative_eq_div, Nat.div_eq_of_lt (hlt _ (by omega))]

end

/-- Settles O31: each bit position is read off the significand `2^52 + df`, whose top bit lies above the discarded ones. -/
theorem bitLevelViewOfTheDiscardedPart : Obligations.BitLevelViewOfTheDiscardedPart := by
  intro p a sgn x h hd
  have hx := isF64Magnitude_of_decodeF64 hd
  obtain ⟨-, -, hF1, hF⟩ := p.legal_bounds h
  have hsig := decodeF64_eq_finite_of_normal hd
  refine ⟨fun he ht => ?_, fun he ht => ?_, discarded_of_shift_ge hx⟩
  · have hsh := shiftAmount_of_normal h hx (by rw [hsig he]; omega) ht
    have hpow : 2 ^ 52 = 2 ^ (52 - p.F) * 2 ^ p.F := by rw [← Nat.pow_add]; congr 1; omega
    refine ⟨?_, ?_, ?_, ?_⟩
    · rw [tentative_eq_div, hsh, hsig he, hpow, Nat.mul_add_div (Nat.two_pow_pos _)]
    · rw [roundGrs_guard, hsh, hsig he, guardBit, Nat.testBit_two_pow_add_gt (by omega), Nat.sub_right_comm]
      simp only [show 1 ≤ 52 - p.F ↔ p.F ≤ 51 by omega]
    · rw [roundGrs_round, hsh, hsig he, roundBit, Nat.testBit_two_pow_add_gt (by omega), Nat.sub_right_comm]
      simp only [show 2 ≤ 52 - p.F ↔ p.F ≤ 50 by omega]
    · have hlow : (2 ^ 52 + f64Frac a) % 2 ^ (50 - p.F) = f64Frac a % 2 ^ (50 - p.F) := by
        obtain ⟨c, hc⟩ := Nat.pow_dvd_pow 2 (show 50 - p.F ≤ 52 by omega)
        rw [hc, Nat.mul_add_mod]
      rw [roundGrs_sticky, hsh, hsig he, stickyBit, Nat.sub_right_comm, hlow]
      simp only [show 3 ≤ 52 - p.F ↔ p.F ≤ 49 by omega]
  · have hn : 2 ^ 52 ≤ x.sig := by rw [hsig he]; omega
    rw [roundGrs_sticky, stickyBit_iff_exists_testBit, tentative_eq_div, hsig he]
    exact ⟨shiftAmount_of_subnormal h hx hn ht, rfl, Iff.rfl⟩

/-- Settles O32: Q has `F + 1` bits, and exactly those for a normal target, so `(t - 1) * 2^F + Q` carries from the fraction
into the exponent field. -/
theorem carryGoesIntoTheExponent : Obligations.CarryGoesIntoTheExponent := by
  intro p a sgn x mode h hd
  have hx := isF64Magnitude_of_decodeF64 hd
  refine ⟨tentative_lt_of_legal h hx, fun ht => ?_, fun ht => ?_⟩
  · have hQ := le_tentative_of_normal h hx ht
    obtain ⟨j, hj⟩ : ∃ j : ℕ, biasedExponent p x = j + 1 := ⟨(biasedExponent p x - 1).toNat, by omega⟩
    have hcode : roundedCode p mode x = j * 2 ^ p.F + tentative p x + (increment p mode x).toNat := by
      simp [roundedCode, hj]
    have hexp : (biasedExponent p x).toNat = j + 1 := by omega
    rw [hcode, hexp]
    refine ⟨hQ, fun _ => ?_, fun hcarry => ?_⟩
    · rw [Nat.add_mul]
      omega
    · rw [Nat.add_assoc, hcarry, Nat.pow_succ]
      ring
  · have hQ := tentative_lt_of_subnormal h hx ht
    have hinc : (increment p mode x).toNat ≤ 1 := Bool.toNat_le _
    have hcode : roundedCode p mode x = tentative p x + (increment p mode x).toNat := by
      simp [roundedCode, show max (biasedExponent p x - 1) 0 = 0 by omega]
    rw [hcode]
    exact ⟨rfl, by omega⟩

end Machine
end Sys2Proof
end

section
/-! PROOF. The exact values of the magnitude codes (10_state.md rules R26 and R34) and of the rounded code (40_rounding.md
rules R72 to R74). -/

namespace Sys2Proof

/-- The all-ones exponent field is `2B + 1`. -/
theorem Params.eOnes_eq {p : Params} (h : p.legal = true) : p.eOnes = 2 * p.B + 1 := by
  obtain ⟨hE, -⟩ := p.legal_bounds h
  have hpow : 2 ^ p.E = 2 * 2 ^ (p.E - 1) := by rw [← Nat.pow_succ']; congr 1; omega
  have := Nat.two_pow_pos (p.E - 1)
  simp only [Params.eOnes, Params.B]
  omega

theorem Params.maxfCode_succ {p : Params} (h : p.legal = true) (hk : p.kind ≠ .e4m3) : p.maxfCode + 1 = p.infCode := by
  have hpos : 0 < p.eOnes * 2 ^ p.F := Nat.mul_pos (by have := Params.eOnes_ge h; omega) (Nat.two_pow_pos _)
  unfold Params.maxfCode Params.infCode
  cases hkind : p.kind with
  | ieee => dsimp only; omega
  | e4m3 => exact absurd hkind hk
  | e5m2 => dsimp only; omega

theorem Params.infCode_lt (p : Params) : p.infCode < 2 ^ (p.E + p.F) := by
  rw [Nat.pow_add]
  exact Nat.mul_lt_mul_of_pos_right (by have := p.eOnes_succ; omega) (Nat.two_pow_pos _)

theorem Params.maxfCode_lt {p : Params} (h : p.legal = true) : p.maxfCode < 2 ^ (p.E + p.F) := by
  by_cases hk : p.kind = .e4m3
  · rw [Params.legal_e4m3 h hk]
    decide
  · have := Params.maxfCode_succ h hk
    have := p.infCode_lt
    omega

/-- The smallest normal is finite in every kind. -/
theorem Params.two_pow_F_le_maxfCode {p : Params} (h : p.legal = true) : 2 ^ p.F ≤ p.maxfCode := by
  by_cases hk : p.kind = .e4m3
  · rw [Params.legal_e4m3 h hk]
    decide
  · have hmul : 3 * 2 ^ p.F ≤ p.infCode := Nat.mul_le_mul_right _ (Params.eOnes_ge h)
    have := Params.maxfCode_succ h hk
    have := Nat.two_pow_pos p.F
    omega

namespace Machine

/-! ## The value of a magnitude code -/

/-- The magnitude of a code without a bound on its exponent field, so that the value a rounding carries to has one too. A
subnormal counts in the quanta of exponent field 1. -/
def codeMagnitude (p : Params) (c : Nat) : Magnitude :=
  { sig := c - (c / 2 ^ p.F - 1) * 2 ^ p.F, exp := ((c / 2 ^ p.F - 1 : ℕ) : ℤ) + 1 - p.B - p.F }

section
variable {p : Params}

theorem valueImpl_ofCode {c : Nat} (hc : c < 2 ^ (p.E + p.F)) (s : Bool) :
    valueImpl p (Enc.ofCode p s c) = codeMagnitude p c := by
  have he : c / 2 ^ p.F % 2 ^ p.E = c / 2 ^ p.F :=
    Nat.mod_eq_of_lt (Nat.div_lt_of_lt_mul (by rwa [← Nat.pow_add, Nat.add_comm]))
  have hm := Nat.div_add_mod' c (2 ^ p.F)
  unfold valueImpl codeMagnitude
  simp only [Enc.ofCode, slice, Nat.pow_zero, Nat.div_one, he]
  generalize c / 2 ^ p.F = e at *
  cases e with
  | zero => simp at hm ⊢; exact hm
  | succ n =>
    rw [Nat.add_mul] at hm
    simp
    omega

theorem codeVal_eq {c : Nat} (hc : c < 2 ^ (p.E + p.F)) : codeVal p c = (codeMagnitude p c).val := by
  rw [codeVal, valueImpl_ofCode hc]

/-- A significand of up to `F + 1` bits above `j` binades, or the power of two at their end, is this many quanta. -/
theorem codeMagnitude_val {j Q : Nat} (hj : j = 0 ∨ 2 ^ p.F ≤ Q) (hQ : Q ≤ 2 ^ (p.F + 1)) :
    (codeMagnitude p (j * 2 ^ p.F + Q)).val = (Q : ℚ) * 2 ^ ((j : ℤ) + 1 - p.B - p.F) := by
  have hpos := Nat.two_pow_pos p.F
  rw [Nat.pow_succ] at hQ
  have hdiv : (j * 2 ^ p.F + Q) / 2 ^ p.F = Q / 2 ^ p.F + j := by rw [Nat.add_comm, Nat.add_mul_div_right _ _ hpos]
  obtain hlt | rfl := Nat.lt_or_eq_of_le hQ
  · have hj1 : (j * 2 ^ p.F + Q) / 2 ^ p.F - 1 = j := by
      obtain hsub | hnorm := Nat.lt_or_ge Q (2 ^ p.F)
      · rw [hdiv, Nat.div_eq_of_lt hsub]
        omega
      · rw [hdiv, Nat.div_eq_of_lt_le (k := 1) (by omega) (by omega)]
        omega
    rw [codeMagnitude, hj1, Nat.add_sub_cancel_left]
    rfl
  · have hj2 : (j * 2 ^ p.F + 2 ^ p.F * 2) / 2 ^ p.F - 1 = j + 1 := by
      rw [hdiv, Nat.mul_div_cancel_left _ hpos]
      omega
    have hsig : j * 2 ^ p.F + 2 ^ p.F * 2 - (j + 1) * 2 ^ p.F = 2 ^ p.F := by
      rw [Nat.add_mul]
      omega
    have hexp : ((j + 1 : ℕ) : ℤ) + 1 - p.B - p.F = (j + 1 - p.B - p.F) + 1 := by
      push_cast
      ring
    rw [codeMagnitude, hj2, hsig, hexp, Magnitude.val, zpow_add_one₀ two_ne_zero]
    push_cast
    ring

/-- Every code counts quanta above a number of binades. -/
theorem exists_code_eq (p : Params) (c : Nat) :
    ∃ j Q, c = j * 2 ^ p.F + Q ∧ (j = 0 ∨ 2 ^ p.F ≤ Q) ∧ Q < 2 ^ (p.F + 1) := by
  have hm := Nat.div_add_mod' c (2 ^ p.F)
  have hlt := Nat.mod_lt c (Nat.two_pow_pos p.F)
  rw [Nat.pow_succ]
  cases he : c / 2 ^ p.F with
  | zero => exact ⟨0, c, by omega, .inl rfl, by rw [he] at hm; omega⟩
  | succ n =>
    rw [he, Nat.add_mul] at hm
    exact ⟨n, 2 ^ p.F + c % 2 ^ p.F, by omega, .inr (by omega), by omega⟩

/-- The next code is one quantum more (10_state.md section 4). -/
theorem codeMagnitude_val_strictMono (p : Params) : StrictMono fun c => (codeMagnitude p c).val := by
  refine strictMono_nat_of_lt_succ fun c => ?_
  obtain ⟨j, Q, rfl, hj, hQ⟩ := exists_code_eq p c
  rw [Nat.add_assoc, codeMagnitude_val hj hQ.le, codeMagnitude_val (hj.imp_right Nat.le_succ_of_le) hQ]
  gcongr
  exact Nat.lt_succ_self Q

theorem codeMagnitude_val_le_iff {c d : Nat} : (codeMagnitude p c).val ≤ (codeMagnitude p d).val ↔ c ≤ d :=
  (codeMagnitude_val_strictMono p).le_iff_le

theorem codeMagnitude_val_lt_iff {c d : Nat} : (codeMagnitude p c).val < (codeMagnitude p d).val ↔ c < d :=
  (codeMagnitude_val_strictMono p).lt_iff_lt

/-- The code after the largest finite one would be `2^(maxExponent + 1)`. -/
theorem codeMagnitude_infCode_val (h : p.legal = true) :
    (codeMagnitude p p.infCode).val = 2 ^ (p.maxExponent + 1) := by
  have hcode : p.infCode = 2 * p.B * 2 ^ p.F + 2 ^ p.F := by
    rw [Params.infCode, Params.eOnes_eq h, Nat.add_mul, Nat.one_mul]
  rw [hcode, codeMagnitude_val (.inr le_rfl) (Nat.pow_le_pow_right (by decide) (by omega)), Nat.cast_pow, Nat.cast_ofNat,
    ← zpow_natCast, ← zpow_add₀ two_ne_zero, Params.maxExponent]
  congr 1
  push_cast
  ring

theorem codeMagnitude_maxfCode_val_e4m3 (hp : p = .e4m3) : (codeMagnitude p p.maxfCode).val = 448 := by
  subst hp
  rw [show codeMagnitude .e4m3 Params.e4m3.maxfCode = { sig := 14, exp := 5 } by rfl]
  norm_num [Magnitude.val]

theorem codeMagnitude_maxfCode_val_e5m2 (hp : p = .e5m2) : (codeMagnitude p p.maxfCode).val = 57344 := by
  subst hp
  rw [show codeMagnitude .e5m2 Params.e5m2.maxfCode = { sig := 7, exp := 13 } by rfl]
  norm_num [Magnitude.val]

end

/-! ## The operand in quanta, and the rounded code -/

/-- The part of a quantum that a rounding discards. -/
def discardedFraction (p : Params) (x : Magnitude) : ℚ :=
  ((guardBit x.sig (shiftAmount p x)).toNat : ℚ) / 2 + ((roundBit x.sig (shiftAmount p x)).toNat : ℚ) / 4 + belowRound p x

section
variable {p : Params} {x : Magnitude}

theorem val_eq_tentative_add (h : p.legal = true) (hx : IsF64Magnitude x) :
    x.val = (tentative p x + discardedFraction p x) * 2 ^ quantumExponent p x := by
  rw [← div_eq_iff (by positivity), val_div_quantum_eq h hx, discardedFraction]
  ring

theorem discardedFraction_nonneg (p : Params) (x : Magnitude) : 0 ≤ discardedFraction p x := by
  have := belowRound_nonneg p x
  unfold discardedFraction
  positivity

theorem discardedFraction_lt_one (p : Params) (x : Magnitude) : discardedFraction p x < 1 := by
  have hbelow := belowRound_lt p x
  have hg : ((guardBit x.sig (shiftAmount p x)).toNat : ℚ) ≤ 1 := by exact_mod_cast Bool.toNat_le _
  have hr : ((roundBit x.sig (shiftAmount p x)).toNat : ℚ) ≤ 1 := by exact_mod_cast Bool.toNat_le _
  unfold discardedFraction
  linarith

theorem grsBits_eq_zero_iff (g r s : Bool) : grsBits g r s = 0 ↔ g = false ∧ r = false ∧ s = false := by
  revert g r s
  decide

/-- Nothing is discarded exactly when G, R and S are 0 (40_rounding.md rule R78). -/
theorem discardedFraction_eq_zero_iff (p : Params) (x : Magnitude) : discardedFraction p x = 0 ↔ roundGrs p x = 0 := by
  have hbelow := belowRound_nonneg p x
  have hsticky : stickyBit x.sig (shiftAmount p x) = false ↔ belowRound p x = 0 := by
    rw [← Bool.not_eq_true, ← belowRound_pos_iff, not_lt, hbelow.ge_iff_eq']
  rw [roundGrs, discardedBits, grsBits_eq_zero_iff, hsticky, discardedFraction]
  cases guardBit x.sig (shiftAmount p x) with
  | true => simp; positivity
  | false =>
    cases roundBit x.sig (shiftAmount p x) with
    | true => simp; positivity
    | false => simp

/-- RNE increments only from a half on (40_rounding.md rule R72). -/
theorem half_le_of_increment {mode : RoundMode} (hinc : increment p mode x = true) : 1 / 2 ≤ discardedFraction p x := by
  have hbelow := belowRound_nonneg p x
  have hg : guardBit x.sig (shiftAmount p x) = true := by
    cases mode with
    | rne => exact (Bool.and_eq_true_iff.mp hinc).1
    | trunc => cases hinc
  unfold discardedFraction
  rw [hg]
  have : (0 : ℚ) ≤ (roundBit x.sig (shiftAmount p x)).toNat / 4 := by positivity
  simp only [Bool.toNat_true, Nat.cast_one]
  linarith

/-- The tentative result, and the code after it, in quanta: a carry goes into the exponent field (40_rounding.md
rule R73). -/
theorem codeMagnitude_quanta_val (h : p.legal = true) (hx : IsF64Magnitude x) {n : Nat} (hn : n ≤ 1) :
    (codeMagnitude p ((max (biasedExponent p x - 1) 0).toNat * 2 ^ p.F + (tentative p x + n))).val =
      ((tentative p x + n : ℕ) : ℚ) * 2 ^ quantumExponent p x := by
  have hQ := tentative_lt_of_legal h hx
  rw [codeMagnitude_val _ (by omega), ← quantumExponent_eq]
  obtain ht | ht := Int.lt_or_le 0 (biasedExponent p x)
  · exact .inr ((le_tentative_of_normal h hx ht).trans (Nat.le_add_right _ _))
  · exact .inl (by omega)

theorem codeMagnitude_roundedCode_val (h : p.legal = true) (hx : IsF64Magnitude x) (mode : RoundMode) :
    (codeMagnitude p (roundedCode p mode x)).val =
      ((tentative p x + (increment p mode x).toNat : ℕ) : ℚ) * 2 ^ quantumExponent p x := by
  rw [roundedCode, Nat.add_assoc, codeMagnitude_quanta_val h hx (Bool.toNat_le _)]

theorem codeMagnitude_roundedCode_trunc_le (h : p.legal = true) (hx : IsF64Magnitude x) :
    (codeMagnitude p (roundedCode p .trunc x)).val ≤ x.val := by
  rw [codeMagnitude_roundedCode_val h hx, val_eq_tentative_add h hx]
  have := discardedFraction_nonneg p x
  gcongr
  simpa using this

/-- The code after the truncated one, in quanta. -/
theorem lt_codeMagnitude_roundedCode_trunc_succ (h : p.legal = true) (hx : IsF64Magnitude x) :
    x.val < (codeMagnitude p (roundedCode p .trunc x + 1)).val := by
  have hcode : roundedCode p .trunc x + 1 =
      (max (biasedExponent p x - 1) 0).toNat * 2 ^ p.F + (tentative p x + 1) := by
    simp [roundedCode, Nat.add_assoc]
  rw [hcode, codeMagnitude_quanta_val h hx le_rfl, val_eq_tentative_add h hx]
  have := discardedFraction_lt_one p x
  gcongr
  push_cast
  linarith

theorem roundedCode_eq_trunc_add (p : Params) (mode : RoundMode) (x : Magnitude) :
    roundedCode p mode x = roundedCode p .trunc x + (increment p mode x).toNat := by
  simp [roundedCode]

/-- A code whose value the operand reaches is reached by the rounded code, in both modes. -/
theorem le_roundedCode_of_le_val (h : p.legal = true) (hx : IsF64Magnitude x) (mode : RoundMode) {c : Nat}
    (hc : (codeMagnitude p c).val ≤ x.val) : c ≤ roundedCode p mode x := by
  have hlt := codeMagnitude_val_lt_iff.mp (hc.trans_lt (lt_codeMagnitude_roundedCode_trunc_succ h hx))
  rw [roundedCode_eq_trunc_add]
  omega

/-- A code whose value the operand does not exceed is not exceeded by the rounded code: an increment means that the
operand is above the truncated code. -/
theorem roundedCode_le_of_val_le (h : p.legal = true) (hx : IsF64Magnitude x) (mode : RoundMode) {c : Nat}
    (hc : x.val ≤ (codeMagnitude p c).val) : roundedCode p mode x ≤ c := by
  rw [roundedCode_eq_trunc_add]
  cases hinc : increment p mode x with
  | false => exact codeMagnitude_val_le_iff.mp ((codeMagnitude_roundedCode_trunc_le h hx).trans hc)
  | true =>
    refine Nat.succ_le_of_lt (codeMagnitude_val_lt_iff.mp (lt_of_lt_of_le ?_ hc))
    rw [codeMagnitude_roundedCode_val h hx, val_eq_tentative_add h hx]
    have := half_le_of_increment hinc
    gcongr
    simp only [increment_trunc, Bool.toNat_false, Nat.add_zero]
    linarith

/-- Rounding is exact exactly when nothing is discarded: an increment of 1 is more than a discarded part below 1. -/
theorem quanta_eq_val_iff (h : p.legal = true) (hx : IsF64Magnitude x) (mode : RoundMode) :
    ((tentative p x + (increment p mode x).toNat : ℕ) : ℚ) * 2 ^ quantumExponent p x = x.val ↔ roundGrs p x = 0 := by
  rw [val_eq_tentative_add h hx, mul_left_inj' (by positivity), Nat.cast_add, add_right_inj,
    ← discardedFraction_eq_zero_iff]
  cases hinc : increment p mode x with
  | false => simp [eq_comm]
  | true =>
    have hhalf := half_le_of_increment hinc
    have hlt := discardedFraction_lt_one p x
    simp only [Bool.toNat_true, Nat.cast_one]
    constructor
    · intro heq
      linarith
    · intro hzero
      linarith

end
end Machine
end Sys2Proof
end

section
/-! PROOF. ROUND of a finite operand: range check, overflow, flush and exactness (40_rounding.md rules R68, R74, R75, R78
and R79). -/

namespace Sys2Proof.Machine

section
variable {p : Params} {a : Word} {sgn : Bool} {x : Magnitude}

theorem isFiniteNonzero_of_decodeF64 (hd : decodeF64 a = .finite sgn x) : F64IsFiniteNonzero a := by
  obtain ⟨-, ⟨h0, hf, -⟩ | ⟨h0, h1, -⟩⟩ := decodeF64_eq_finite hd
  · exact ⟨by omega, fun hz => hf hz.2⟩
  · exact ⟨h1, fun hz => h0 hz.1⟩

theorem exists_decodeF64_eq_finite (ha : F64IsFiniteNonzero a) : ∃ x, decodeF64 a = .finite (f64Sign a) x := by
  obtain ⟨he, hf⟩ | ⟨h0, h1⟩ := f64IsFiniteNonzero_cases ha
  · exact ⟨_, decodeF64_of_subnormal he hf⟩
  · exact ⟨_, decodeF64_of_normal h0 h1⟩

theorem val_eq_f64Abs (hd : decodeF64 a = .finite sgn x) : x.val = f64Abs a := by
  obtain ⟨-, ⟨h0, -, rfl⟩ | ⟨h0, -, rfl⟩⟩ := decodeF64_eq_finite hd <;> simp [Magnitude.val, f64Abs, h0]

/-! ## The range check -/

/-- The range check accepts exactly the magnitudes of rule R28 of 10_state.md. -/
theorem outOfRange_eq_false_iff (p : Params) (x : Magnitude) : outOfRange p x = false ↔ InRange p x.val := by
  unfold outOfRange Params.rangeCheck InRange
  cases p.kind with
  | ieee => simp
  | e4m3 =>
    rw [← Bool.not_eq_true, Bool.or_eq_true, Magnitude.lt_iff_val_lt, Magnitude.lt_iff_val_lt, not_or, not_lt, not_lt,
      and_comm]
    norm_num [Magnitude.val]
  | e5m2 =>
    rw [← Bool.not_eq_true, Bool.or_eq_true, Magnitude.lt_iff_val_lt, Magnitude.lt_iff_val_lt, not_or, not_lt, not_lt,
      and_comm]
    norm_num [Magnitude.val]

theorem roundCore_of_outOfRange {mode : RoundMode} {sat : Bool} (hd : decodeF64 a = .finite sgn x)
    (hr : ¬ InRange p (f64Abs a)) : roundCore p mode sat (decodeF64 a) = .error .rangeExceeded := by
  rw [← val_eq_f64Abs hd, ← outOfRange_eq_false_iff, Bool.not_eq_false] at hr
  simp [hd, roundCore, hr]

theorem roundCore_of_rounds {mode : RoundMode} {sat : Bool} (hr : Rounds p a) (hd : decodeF64 a = .finite sgn x) :
    roundCore p mode sat (decodeF64 a) =
      .ok (Enc.ofCode p sgn (saturateFlush p (roundedCode p mode x)), roundGrs p x) := by
  have hin := hr.2
  rw [← val_eq_f64Abs hd, ← outOfRange_eq_false_iff] at hin
  simp [hd, roundCore, hin]

/-- An operand that is not rounded leaves `grs` at 0 or is an error (40_rounding.md rules R65 to R68). -/
theorem roundCore_of_not_rounds (mode : RoundMode) (sat : Bool) (hr : ¬ Rounds p a) :
    (∃ r, roundCore p mode sat (decodeF64 a) = .ok (r, 0)) ∨ ∃ e, roundCore p mode sat (decodeF64 a) = .error e := by
  cases hd : decodeF64 a with
  | nan => exact .inl ⟨_, rfl⟩
  | zero s => exact .inl ⟨_, rfl⟩
  | inf s =>
    unfold roundCore
    cases p.hasInf with
    | true => exact .inl ⟨_, rfl⟩
    | false =>
      cases sat with
      | true => exact .inl ⟨_, rfl⟩
      | false => exact .inr ⟨_, rfl⟩
  | finite s x =>
    rw [← hd]
    exact .inr ⟨_, roundCore_of_outOfRange hd fun hin => hr ⟨isFiniteNonzero_of_decodeF64 hd, hin⟩⟩

end

/-- Beyond a bound of rule R28 of 10_state.md a magnitude is out of range. -/
theorem not_inRange_of_beyond {p : Params} {v : ℚ}
    (hout : (p.kind = .e4m3 ∧ (448 < v ∨ v < 1 / 2 ^ 9)) ∨ (p.kind = .e5m2 ∧ (57344 < v ∨ v < 1 / 2 ^ 16))) :
    ¬ InRange p v := by
  intro hin
  obtain ⟨hk, hlt⟩ | ⟨hk, hlt⟩ := hout
  all_goals
    rw [InRange, hk] at hin
    exact hlt.elim (not_lt.mpr hin.2) (not_lt.mpr hin.1)

/-- Settles O28: the comparison with the bounds is that of the exact values. -/
theorem outOfRangeOperandIsRejected : Obligations.OutOfRangeOperandIsRejected := by
  intro mode sat s h ha
  obtain ⟨x, hd⟩ := exists_decodeF64_eq_finite ha
  refine ⟨fun hout => ?_, fun hk => ?_⟩
  · rw [exec_roundInstr_of_error h (roundCore_of_outOfRange hd (not_inRange_of_beyond hout))]
    rfl
  · have hr : Rounds s.params s.a := ⟨ha, by simp [InRange, hk]⟩
    exact ⟨_, exec_roundInstr_of_ok h (roundCore_of_rounds hr hd), rfl⟩

/-! ## Overflow and flush -/

section
variable {p : Params} {x : Magnitude}

theorem saturateFlush_of_overflow {c : Nat} (hc : p.maxfCode < c) :
    saturateFlush p c = if p.hasInf then p.infCode else p.maxfCode := by simp [saturateFlush, hc]

theorem saturateFlush_of_flush (h : p.legal = true) (hz : p.subAsZero = true) {c : Nat} (hc : c < 2 ^ p.F) :
    saturateFlush p c = 0 := by
  have hmax := Params.two_pow_F_le_maxfCode h
  simp [saturateFlush, hz, hc, show ¬ p.maxfCode < c by omega]

theorem saturateFlush_of_kept {c : Nat} (hc : c ≤ p.maxfCode) (hkeep : p.subAsZero = true → 2 ^ p.F ≤ c) :
    saturateFlush p c = c := by
  unfold saturateFlush
  rw [if_neg (Nat.not_lt.mpr hc)]
  cases hz : p.subAsZero with
  | false => simp
  | true => simp [Nat.not_lt.mpr (hkeep hz)]

/-- The greatest operand that a range check accepts is the largest finite value, so nothing accepted rounds beyond it. -/
theorem roundedCode_le_maxfCode (h : p.legal = true) (hx : IsF64Magnitude x) (mode : RoundMode) (hk : p.kind ≠ .ieee)
    (hr : InRange p x.val) : roundedCode p mode x ≤ p.maxfCode := by
  refine roundedCode_le_of_val_le h hx mode ?_
  unfold InRange at hr
  cases hkind : p.kind with
  | ieee => exact absurd hkind hk
  | e4m3 =>
    rw [hkind] at hr
    rw [codeMagnitude_maxfCode_val_e4m3 (Params.legal_e4m3 h hkind)]
    exact hr.2
  | e5m2 =>
    rw [hkind] at hr
    rw [codeMagnitude_maxfCode_val_e5m2 (Params.legal_e5m2 h hkind)]
    exact hr.2

/-- An operand at or beyond `2^(maxExponent + 1)` overflows in both modes (40_rounding.md rule R74). -/
theorem infCode_le_roundedCode (h : p.legal = true) (hx : IsF64Magnitude x) (mode : RoundMode)
    (hv : 2 ^ (p.maxExponent + 1) ≤ x.val) : p.infCode ≤ roundedCode p mode x :=
  le_roundedCode_of_le_val h hx mode (by rwa [codeMagnitude_infCode_val h])

/-- Truncation of an operand below `2^(maxExponent + 1)` stays finite. -/
theorem roundedCode_trunc_lt_infCode (h : p.legal = true) (hx : IsF64Magnitude x)
    (hv : x.val < 2 ^ (p.maxExponent + 1)) : roundedCode p .trunc x < p.infCode := by
  rw [← codeMagnitude_val_lt_iff (p := p), codeMagnitude_infCode_val h]
  exact (codeMagnitude_roundedCode_trunc_le h hx).trans_lt hv

end

/-- Settles O36: in values, infinity's code is `2^(maxExponent + 1)`, which no operand of a kind with a range check
reaches. -/
theorem overflowSaturates : Obligations.OverflowSaturates := by
  refine ⟨fun mode sat s x h hr hd => ⟨fun hover => ?_, fun hk hv => ?_⟩, fun p c _ hc => saturateFlush_of_overflow hc⟩
  · have hx := isF64Magnitude_of_decodeF64 hd
    have hk : s.params.kind = .ieee := by
      by_contra hk
      exact absurd hover (Nat.not_lt.mpr (roundedCode_le_maxfCode h hx mode hk (val_eq_f64Abs hd ▸ hr.2)))
    have hcore := roundCore_of_rounds (mode := mode) (sat := sat) hr hd
    rw [saturateFlush_of_overflow hover, Params.hasInf_of_kind (by simp [hk]), if_pos rfl] at hcore
    rw [exec_roundInstr_of_ok h hcore, formatWord_infCode]
    exact ⟨hk, rfl⟩
  · have hle := infCode_le_roundedCode h (isF64Magnitude_of_decodeF64 hd) mode (val_eq_f64Abs hd ▸ hv)
    have := Params.maxfCode_succ h (by simp [hk])
    omega

/-- Settles O37: the flush compares the rounded code with `2^F`, the code of the smallest normal. -/
theorem flushIsOfTheRoundedResult : Obligations.FlushIsOfTheRoundedResult := by
  intro mode sat s x h hz hr hd
  have hcore := roundCore_of_rounds (mode := mode) (sat := sat) hr hd
  refine ⟨fun hc => ?_, fun hc hmax => ?_⟩
  · rw [saturateFlush_of_flush h hz hc] at hcore
    rw [exec_roundInstr_of_ok h hcore, formatWord_zero]
  · rw [saturateFlush_of_kept hmax fun _ => hc] at hcore
    rw [exec_roundInstr_of_ok h hcore]

/-- Settles O39: `grs` is 0 exactly when no part of a quantum is discarded, and an increment is never exact. -/
theorem grsTellsInexactness : Obligations.GrsTellsInexactness := by
  intro mode sat s h
  by_cases hr : Rounds s.params s.a
  · obtain ⟨x, hd⟩ := exists_decodeF64_eq_finite hr.1
    refine ⟨_, exec_roundInstr_of_ok h (roundCore_of_rounds hr hd), fun hn => absurd hr hn, fun _ x' hd' => ?_⟩
    obtain rfl : x = x' := by simpa [hd] using hd'
    rw [← val_eq_f64Abs hd]
    exact ⟨rfl, rfl, (quanta_eq_val_iff h (isF64Magnitude_of_decodeF64 hd) mode).not.symm⟩
  · obtain ⟨r, hcore⟩ | ⟨e, hcore⟩ := roundCore_of_not_rounds mode sat hr
    · exact ⟨_, exec_roundInstr_of_ok h hcore, fun _ => rfl, fun hn => absurd hn hr⟩
    · exact ⟨_, exec_roundInstr_of_error h hcore, fun _ => rfl, fun hn => absurd hn hr⟩

/-! ## Truncation -/

section
variable {p : Params} {x : Magnitude}

/-- The truncated code is finite where the operand is below `2^(maxExponent + 1)`, or in E4M3 accepted. -/
theorem roundedCode_trunc_le_maxfCode (h : p.legal = true) (hx : IsF64Magnitude x) (hr : InRange p x.val)
    (hv : p.kind ≠ .e4m3 → x.val < 2 ^ (p.maxExponent + 1)) : roundedCode p .trunc x ≤ p.maxfCode := by
  by_cases hk : p.kind = .e4m3
  · exact roundedCode_le_maxfCode h hx .trunc (by simp [hk]) hr
  · have hlt := roundedCode_trunc_lt_infCode h hx (hv hk)
    have := Params.maxfCode_succ h hk
    omega

theorem codeVal_of_finite (h : p.legal = true) {c : Nat} (hc : c ≤ p.maxfCode) :
    codeVal p c = (codeMagnitude p c).val :=
  codeVal_eq (hc.trans_lt (Params.maxfCode_lt h))

end

/-- Settles O34: the next code's value is above the operand, so every representable value not above it has a code up to the
truncated one. -/
theorem truncGivesTheLargestValueNotAbove : Obligations.TruncGivesTheLargestValueNotAbove := by
  intro sat s h hz hop hv
  obtain hzero | hr := hop
  · refine ⟨0, 0, exec_roundInstr_of_ok (mode := .trunc) h (by rw [decodeF64_of_isZero hzero]; rfl), Nat.zero_le _, ?_⟩
    have habs : f64Abs s.a = codeVal s.params 0 := by
      simp [f64Abs, hzero.1, hzero.2, codeVal, ofCode_zero, valueImpl, Magnitude.val]
    rw [habs]
    exact ⟨le_rfl, fun _ _ hle => hle⟩
  · obtain ⟨x, hd⟩ := exists_decodeF64_eq_finite hr.1
    have hx := isF64Magnitude_of_decodeF64 hd
    have hcore := roundCore_of_rounds (mode := .trunc) (sat := sat) hr hd
    have hin := hr.2
    rw [← val_eq_f64Abs hd] at hv hin ⊢
    have hmax := roundedCode_trunc_le_maxfCode h hx hin hv
    rw [saturateFlush_of_kept hmax fun hz' => by simp [hz] at hz'] at hcore
    refine ⟨_, _, exec_roundInstr_of_ok (mode := .trunc) h hcore, hmax, ?_, fun c' hc' hle => ?_⟩
    · rw [codeVal_of_finite h hmax]
      exact codeMagnitude_roundedCode_trunc_le h hx
    · rw [codeVal_of_finite h hc'] at hle ⊢
      rw [codeVal_of_finite h hmax]
      exact codeMagnitude_val_le_iff.mpr (le_roundedCode_of_le_val h hx .trunc hle)

end Sys2Proof.Machine
end

section
/-! PROOF. ROUND in an explicit layout against its implicit twin (40_rounding.md rule R77). -/

namespace Sys2Proof

/-- The implicit format with the fraction width of an explicit one (40_rounding.md rule R77). -/
def Params.implicitTwin (p : Params) : Params := { p with M := p.M - 1, explicitJ := false }

section
variable {p : Params}

@[simp] theorem Params.implicitTwin_E (p : Params) : p.implicitTwin.E = p.E := rfl
@[simp] theorem Params.implicitTwin_kind (p : Params) : p.implicitTwin.kind = p.kind := rfl
@[simp] theorem Params.implicitTwin_subAsZero (p : Params) : p.implicitTwin.subAsZero = p.subAsZero := rfl
@[simp] theorem Params.implicitTwin_explicitJ (p : Params) : p.implicitTwin.explicitJ = false := rfl

theorem Params.implicitTwin_F (hj : p.explicitJ = true) : p.implicitTwin.F = p.F := by
  simp [Params.F, Params.implicitTwin, hj]

theorem Params.implicitTwin_legal (h : p.legal = true) (hj : p.explicitJ = true) : p.implicitTwin.legal = true := by
  obtain ⟨hE, hE', hF, hF'⟩ := p.legal_bounds h
  simp [Params.legal, Params.implicitTwin_F hj, Params.ieee_of_explicitJ h hj, hE, hE', hF, hF']

end

namespace Machine

section
variable {p q : Params}

/-- `round_core` reads of the parameters the exponent and fraction widths, the kind and the flush. -/
theorem roundCore_congr (hE : q.E = p.E) (hF : q.F = p.F) (hz : q.subAsZero = p.subAsZero) (hk : q.kind = p.kind)
    (mode : RoundMode) (sat : Bool) (x : F64) : roundCore q mode sat x = roundCore p mode sat x := by
  have hB : q.B = p.B := by rw [Params.B, hE, Params.B]
  have hones : q.eOnes = p.eOnes := by rw [Params.eOnes, hE, Params.eOnes]
  have hinf : q.hasInf = p.hasInf := by rw [Params.hasInf, hk, Params.hasInf]
  have hInf : q.infCode = p.infCode := by rw [Params.infCode, hones, hF, Params.infCode]
  have hMax : q.maxfCode = p.maxfCode := by rw [Params.maxfCode, hk, hones, hF, Params.maxfCode]
  have hNan : q.nanCode = p.nanCode := by rw [Params.nanCode, hk, hones, hF, Params.nanCode]
  have hcode : ∀ s c, Enc.ofCode q s c = Enc.ofCode p s c := fun s c => by rw [Enc.ofCode, hE, hF, Enc.ofCode]
  cases x with
  | nan => simp only [roundCore, hcode, hNan]
  | inf s => simp only [roundCore, hcode, hinf, hInf, hMax]
  | zero s => simp only [roundCore, hcode]
  | finite s x =>
    have hsh : shiftAmount q x = shiftAmount p x := by
      simp only [shiftAmount, shiftInt, quantumExponent, hB, hF]
    have hrounded : roundedCode q mode x = roundedCode p mode x := by
      simp only [roundedCode, biasedExponent, tentative, increment, hsh, hB, hF]
    have hout : outOfRange q x = outOfRange p x := by rw [outOfRange, Params.rangeCheck, hk, outOfRange, Params.rangeCheck]
    simp only [roundCore, hout, hcode, saturateFlush, hrounded, hinf, hInf, hMax, hz, hF, roundGrs, hsh]

theorem roundCore_implicitTwin (hj : p.explicitJ = true) (mode : RoundMode) (sat : Bool) (x : F64) :
    roundCore p.implicitTwin mode sat x = roundCore p mode sat x :=
  roundCore_congr (q := p.implicitTwin) p.implicitTwin_E (Params.implicitTwin_F hj) p.implicitTwin_subAsZero
    p.implicitTwin_kind mode sat x

/-- A kind with infinities and no range check answers every operand with a value. -/
theorem exists_roundCore_ok (hk : p.kind = .ieee) (mode : RoundMode) (sat : Bool) (x : F64) :
    ∃ r g, roundCore p mode sat x = .ok (r, g) := by
  obtain ⟨s, c, g, h⟩ | ⟨-, hinf, -⟩ | ⟨-, s, mag, -, hout⟩ := roundCore_cases p mode sat x
  · exact ⟨_, _, h⟩
  · simp [Params.hasInf, hk] at hinf
  · simp [outOfRange_ieee hk] at hout

/-! ## A packed value on the port -/

/-- Bits above the slice do not matter. -/
theorem slice_mod_two_pow {lo width n : Nat} (hn : lo + width ≤ n) (v : Nat) :
    slice (v % 2 ^ n) lo width = slice v lo width := by
  refine Nat.eq_of_testBit_eq fun i => ?_
  simp only [slice, Nat.testBit_mod_two_pow, Nat.testBit_div_two_pow]
  by_cases hi : i < width
  · simp [hi, show i + lo < n by omega]
  · simp [hi]

/-- Exponent field and mantissa of a result stand on the port `y`, and the sign where its width is at most 64. -/
theorem unpack_resultWord_pack {ew mw : Nat} {x : Enc} (hw : ew + mw ≤ 64) (hx : x.Fits ew mw) :
    (unpack ew mw (resultWord (pack ew mw x)).toNat).e = x.e ∧
    (unpack ew mw (resultWord (pack ew mw x)).toNat).m = x.m ∧
    (ew + mw < 64 → (unpack ew mw (resultWord (pack ew mw x)).toNat).s = x.s) := by
  have hpack := unpack_pack hx
  simp only [unpack, resultWord, BitVec.toNat_ofNat] at hpack ⊢
  refine ⟨?_, ?_, fun hlt => ?_⟩
  · rw [slice_mod_two_pow (by omega)]
    exact congrArg Enc.e hpack
  · rw [slice_mod_two_pow (by omega)]
    exact congrArg Enc.m hpack
  · rw [Nat.testBit_mod_two_pow, decide_eq_true hlt, Bool.true_and]
    exact congrArg Enc.s hpack

end

/-- Settles O38: both layouts round to one implicit value, and the explicit one inserts its J bit. -/
theorem explicitRoundInsertsTheJBit : Obligations.ExplicitRoundInsertsTheJBit := by
  intro mode sat s h hj
  obtain ⟨r, g, hcore⟩ := exists_roundCore_ok (Params.ieee_of_explicitJ h hj) mode sat (decodeF64 s.a)
  have htwin := (roundCore_implicitTwin hj mode sat (decodeF64 s.a)).trans hcore
  have hfits := roundCore_fits hcore
  have hM := Params.M_of_explicit h hj
  obtain ⟨-, hE, -, hF⟩ := s.params.legal_bounds h
  refine ⟨_, _, exec_roundInstr_of_ok h hcore,
    exec_roundInstr_of_ok (s := { s with params := s.params.implicitTwin }) (Params.implicitTwin_legal h hj) htwin,
    rfl, rfl, rfl, ?_⟩
  obtain ⟨hte, htm, hts⟩ := unpack_resultWord_pack (by omega) (jInsert_fits h hj hfits)
  obtain ⟨hue, hum, hus⟩ := unpack_resultWord_pack (by omega) hfits
  have ht : formatWord s.params r = resultWord (pack s.params.E s.params.M (jInsert s.params r)) := by
    simp [formatWord, hj, explicitWord]
  have hu : formatWord s.params.implicitTwin r = resultWord (pack s.params.E s.params.F r) := by
    simp [formatWord, implicitWord, Params.implicitTwin_F hj]
  simp only [State.respond_y, ht, hu, explicitFields, implicitFields, hte, htm, hue, hum]
  refine ⟨rfl, Nat.add_comm _ _, fun hW => ?_⟩
  rw [hts (by unfold Params.W at hW; omega), hus (by omega)]
  rfl

end Machine
end Sys2Proof
end

section
/-! PROOF. TO_F64 of NaN, infinity and a flushed subnormal (40_rounding.md rules R84 to R86). -/

namespace Sys2Proof.Machine

section
variable {s : State}

theorem exec_toF64 (h : s.params.legal = true) :
    exec .toF64 s = .next (s.respond (toF64Word s.params (toF64Source s.params (operandW s.params 1 s.a))) 0) :=
  onInstance_of_legal h fun p => s.respond (toF64Word p (toF64Source p (operandW p Instr.toF64.op s.a))) 0

theorem toF64Word_of_nan {p : Params} {x : Enc} (hx : classify p x = .nan) : toF64Word p x = 0x7FF0000000000001 := by
  rw [toF64Word, hx]
  rfl

theorem toF64Word_of_inf {p : Params} {x : Enc} (hx : classify p x = .inf) :
    toF64Word p x = if x.s then 0xFFF0000000000000 else 0x7FF0000000000000 := by
  rw [toF64Word, hx]
  cases x.s <;> rfl

theorem toF64Word_of_flushed {p : Params} {x : Enc} (hz : p.subAsZero = true) (hx : classify p x = .subnormal) :
    toF64Word p x = if x.s then 0x8000000000000000 else 0 := by
  rw [toF64Word, hx, hz]
  cases x.s <;> rfl

/-- An implicit format has at most 64 bits, so its operand is a slice of the port. -/
theorem toF64Source_of_implicit {p : Params} (h : p.legal = true) (hj : p.explicitJ = false) (a : Word) :
    toF64Source p (operandW p 1 a) = implicitFields p (slice a.toNat 0 p.W) := by
  have hW : p.W ≤ 64 := by
    obtain ⟨-, hE, -, hF⟩ := p.legal_bounds h
    rw [Params.F_of_implicit hj] at hF
    unfold Params.W
    omega
  simp [toF64Source, operandW, hj, hW]

theorem toF64Source_of_explicit {p : Params} (hj : p.explicitJ = true) (v : Nat) :
    toF64Source p v = jRemove p (explicitFields p v) := by simp [toF64Source, hj]

section
variable {p : Params} {x : Enc}

theorem of_classifyExplicit_nan (hx : classifyExplicit p x = .nan) : x.e = p.eOnes ∧ x.m ≠ 0 := by
  unfold classifyExplicit at hx
  split_ifs at hx with he hm
  exact ⟨he, hm⟩

theorem of_classifyExplicit_inf (hx : classifyExplicit p x = .inf) : x.e = p.eOnes ∧ x.m = 0 := by
  unfold classifyExplicit at hx
  split_ifs at hx with he hm
  exact ⟨he, hm⟩

/-- In the IEEE kind a NaN has an all-ones exponent field and some fraction (10_state.md rule R28). -/
theorem classify_ieee_nan (hk : p.kind = .ieee) (he : x.e = p.eOnes) (hm : x.m ≠ 0) : classify p x = .nan := by
  simp [classify, isNan, hk, he, hm]

theorem classify_ieee_inf (hk : p.kind = .ieee) (he : x.e = p.eOnes) (hm : x.m = 0) : classify p x = .inf := by
  simp [classify, isNan, Params.hasInf, hk, he, hm]

/-- J_DROP keeps a NaN a NaN, a lone J bit too (41_jbit_adapter.md rule R95). -/
theorem classify_jRemove_of_nan (h : p.legal = true) (hj : p.explicitJ = true) (hx : classifyExplicit p x = .nan) :
    classify p (jRemove p x) = .nan := by
  have hk := Params.ieee_of_explicitJ h hj
  obtain ⟨he, hm⟩ := of_classifyExplicit_nan hx
  unfold jRemove
  rw [if_pos he, if_neg hm]
  split
  · next hf => exact classify_ieee_nan hk rfl hf
  · rw [ofCode_nanCode h (by simp [hk])]
    exact classify_ieee_nan hk rfl one_ne_zero

theorem jRemove_of_inf (hx : classifyExplicit p x = .inf) : jRemove p x = { s := x.s, e := p.eOnes, m := 0 } := by
  obtain ⟨he, hm⟩ := of_classifyExplicit_inf hx
  simp [jRemove, he, hm]

end
end

/-- Settles O42: TO_F64 converts by class, and J_DROP keeps the class of a NaN and of an infinity. -/
theorem toF64OfNanAndInfinity : Obligations.ToF64OfNanAndInfinity := by
  intro s h
  rw [exec_toF64 h]
  refine ⟨fun hj x hx => ?_, fun hj x hx => ?_⟩
  · rw [toF64Source_of_implicit h hj, ← hx]
    exact ⟨fun hc => by rw [toF64Word_of_nan hc], fun hc => by rw [toF64Word_of_inf hc]⟩
  · rw [toF64Source_of_explicit hj, ← hx]
    refine ⟨fun hc => by rw [toF64Word_of_nan (classify_jRemove_of_nan h hj hc)], fun hc => ?_⟩
    rw [jRemove_of_inf hc, toF64Word_of_inf (classify_ieee_inf (Params.ieee_of_explicitJ h hj) rfl rfl)]

/-- Settles O43: the flush is a branch of TO_F64 on the class of the converted value. -/
theorem toF64FlushesSubnormals : Obligations.ToF64FlushesSubnormals := by
  intro s h hz x hx hc
  rw [exec_toF64 h, ← hx, toF64Word_of_flushed hz hc]

end Sys2Proof.Machine
end

section
/-! PROOF. The explicit-J-bit adapter: canonical forms, insertion and removal of the J bit (41_jbit_adapter.md). -/

namespace Sys2Proof

/-- In the IEEE kind SUB_AS_ZERO is free (00_scope.md rule R11). -/
theorem Params.legal_withSubAsZero {p : Params} (h : p.legal = true) (hk : p.kind = .ieee) (z : Bool) :
    Params.legal { p with subAsZero := z } = true := by
  obtain ⟨hE, hE', hF, hF'⟩ := p.legal_bounds h
  have hF_eq : Params.F { p with subAsZero := z } = p.F := rfl
  rw [Params.legal, hF_eq]
  simp [hk, hE, hE', hF, hF']

/-- `d` places further left at the exponent `d` below is the same number. -/
theorem Magnitude.val_mul_two_pow (m d : Nat) (k : ℤ) :
    Magnitude.val { sig := m * 2 ^ d, exp := k } = Magnitude.val { sig := m, exp := k + d } := by
  simp only [Magnitude.val]
  rw [zpow_add₀ two_ne_zero, zpow_natCast]
  push_cast
  ring

theorem Instr.needsExplicitJ_cases {i : Instr} (hi : i.needsExplicitJ = true) :
    i = .canon ∨ i = .jExpand ∨ i = .jDrop := by
  cases i with
  | roundRne sat => cases hi
  | roundTrunc sat => cases hi
  | toF64 => cases hi
  | canon => exact .inl rfl
  | jExpand => exact .inr (.inl rfl)
  | jDrop => exact .inr (.inr rfl)

namespace Machine

section
variable {p : Params} {x r : Enc}

/-! ## Canonicalization -/

/-- The largest shift that keeps the leading one inside `n` bits fills them. -/
theorem two_pow_le_mul_two_pow_bitlen {m n : Nat} (hm : m ≠ 0) (hlt : m < 2 ^ (n + 1)) :
    2 ^ n ≤ m * 2 ^ (n + 1 - bitlen m) := by
  have hle := bitlen_le_iff.mpr hlt
  have hpos : 0 < bitlen m := by simp [bitlen_of_pos (Nat.pos_of_ne_zero hm)]
  calc 2 ^ n = 2 ^ (bitlen m - 1) * 2 ^ (n + 1 - bitlen m) := by rw [← Nat.pow_add]; congr 1; omega
    _ ≤ m * 2 ^ (n + 1 - bitlen m) := Nat.mul_le_mul_right _ (two_pow_bitlen_le (Nat.pos_of_ne_zero hm))

theorem mul_two_pow_lt_of_le {m n d : Nat} (hlt : m < 2 ^ n) (hd : d ≤ n - bitlen m) : m * 2 ^ d < 2 ^ n := by
  have hle := bitlen_le_iff.mpr hlt
  calc m * 2 ^ d < 2 ^ bitlen m * 2 ^ d := Nat.mul_lt_mul_of_pos_right (lt_two_pow_bitlen m) (Nat.two_pow_pos d)
    _ ≤ 2 ^ n := by rw [← Nat.pow_add]; exact Nat.pow_le_pow_right (by decide) (by omega)

theorem canonForm_of_eOnes (he : x.e = p.eOnes) : canonForm p x = x := if_pos he

/-- The last branch of `canon`, in which the mantissa moves: no bit leaves it at the top. -/
theorem canonForm_of_normal (h : p.legal = true) (hj : p.explicitJ = true) (hx : x.Fits p.E p.M) (he : x.e ≠ p.eOnes)
    (hm : x.m ≠ 0) (he0 : x.e ≠ 0) {d : Nat} (hd : d = min (p.M - bitlen x.m) (x.e - 1)) :
    canonForm p x = { s := x.s, e := if 2 ^ p.F ≤ x.m * 2 ^ d then x.e - d else 0, m := x.m * 2 ^ d } := by
  have hlt : x.m * 2 ^ d < 2 ^ p.M := mul_two_pow_lt_of_le hx.2 (by omega)
  have hbit : (x.m * 2 ^ d).testBit (p.M - 1) = true ↔ 2 ^ p.F ≤ x.m * 2 ^ d :=
    jBit_iff (x := { x with m := x.m * 2 ^ d }) h hj ⟨hx.1, hlt⟩
  unfold canonForm
  rw [if_neg he, if_neg hm, if_neg he0]
  simp only [← hd, slice_zero_lo, Nat.shiftLeft_eq, Nat.mod_eq_of_lt hlt, hbit]

/-- Everything `canon` does to a finite encoding (41_jbit_adapter.md rule R90): it moves the mantissa left and counts
the exponent down until the J bit is 1, or down to the least exponent if the J bit stays 0. Exponent fields 0 and 1 mean
one exponent (10_state.md rule R36), so the count starts at `max e 1`. -/
theorem canonForm_cases (h : p.legal = true) (hj : p.explicitJ = true) (hx : x.Fits p.E p.M) (he : x.e ≠ p.eOnes) :
    ∃ d, (d < max x.e 1 ∧ 2 ^ p.F ≤ x.m * 2 ^ d ∧
        canonForm p x = { s := x.s, e := max x.e 1 - d, m := x.m * 2 ^ d }) ∨
      (d + 1 = max x.e 1 ∧ x.m * 2 ^ d < 2 ^ p.F ∧ canonForm p x = { s := x.s, e := 0, m := x.m * 2 ^ d }) := by
  have hJ := jBit_iff h hj hx
  by_cases hm : x.m = 0
  · exact ⟨max x.e 1 - 1, .inr ⟨by omega, by simp [hm], by simp [canonForm, he, hm]⟩⟩
  by_cases he0 : x.e = 0
  · refine ⟨0, ?_⟩
    rw [Nat.pow_zero, Nat.mul_one]
    unfold canonForm
    rw [if_neg he, if_neg hm, if_pos he0]
    by_cases hge : 2 ^ p.F ≤ x.m
    · exact .inl ⟨by omega, hge, by rw [if_pos (hJ.mpr hge), he0]; rfl⟩
    · exact .inr ⟨by omega, Nat.lt_of_not_le hge, by rw [if_neg (mt hJ.mp hge), ← he0]⟩
  · obtain ⟨d, hd⟩ : ∃ d, d = min (p.M - bitlen x.m) (x.e - 1) := ⟨_, rfl⟩
    rw [canonForm_of_normal h hj hx he hm he0 hd]
    refine ⟨d, ?_⟩
    by_cases hge : 2 ^ p.F ≤ x.m * 2 ^ d
    · exact .inl ⟨by omega, hge, by rw [if_pos hge, Nat.max_eq_left (Nat.one_le_iff_ne_zero.mpr he0)]⟩
    · have hM := Params.M_of_explicit h hj
      have hfill := two_pow_le_mul_two_pow_bitlen hm (hM ▸ hx.2)
      have hne : d ≠ p.F + 1 - bitlen x.m := fun heq => hge (heq ▸ hfill)
      exact .inr ⟨by omega, Nat.lt_of_not_le hge, by rw [if_neg hge]⟩

/-- Each place further left costs one of the exponent, and the sign is kept. -/
theorem canonForm_shift (h : p.legal = true) (hj : p.explicitJ = true) (hx : x.Fits p.E p.M) (he : x.e ≠ p.eOnes) :
    ∃ d, (canonForm p x).s = x.s ∧ (canonForm p x).m = x.m * 2 ^ d ∧ max (canonForm p x).e 1 + d = max x.e 1 := by
  obtain ⟨d, ⟨hd, -, hc⟩ | ⟨hd, -, hc⟩⟩ := canonForm_cases h hj hx he
  · exact ⟨d, by rw [hc], by rw [hc], by rw [hc]; dsimp only; omega⟩
  · exact ⟨d, by rw [hc], by rw [hc], by rw [hc]; dsimp only; omega⟩

theorem canonForm_s (h : p.legal = true) (hj : p.explicitJ = true) (hx : x.Fits p.E p.M) :
    (canonForm p x).s = x.s := by
  by_cases he : x.e = p.eOnes
  · rw [canonForm_of_eOnes he]
  · obtain ⟨d, hs, -, -⟩ := canonForm_shift h hj hx he
    exact hs

/-- A finite encoding stays finite. -/
theorem canonForm_e_ne_eOnes (h : p.legal = true) (hj : p.explicitJ = true) (hx : x.Fits p.E p.M)
    (he : x.e ≠ p.eOnes) : (canonForm p x).e ≠ p.eOnes := by
  have h3 := Params.eOnes_ge h
  have hlt : x.e < p.eOnes := by
    have := hx.1
    have := p.eOnes_succ
    omega
  obtain ⟨d, -, -, hexp⟩ := canonForm_shift h hj hx he
  omega

theorem canonForm_canonicalJ (h : p.legal = true) (hj : p.explicitJ = true) (hx : x.Fits p.E p.M)
    (he : x.e ≠ p.eOnes) : CanonicalJ p (canonForm p x) := by
  rw [CanonicalJ, jBit_iff h hj (canonForm_fits h hx)]
  obtain ⟨d, ⟨hd, hge, hc⟩ | ⟨-, hlt, hc⟩⟩ := canonForm_cases h hj hx he <;> rw [hc]
  · exact iff_of_true hge (by dsimp only; omega)
  · exact iff_of_false (Nat.not_le.mpr hlt) (by simp)

theorem canonForm_val (h : p.legal = true) (hj : p.explicitJ = true) (hx : x.Fits p.E p.M) (he : x.e ≠ p.eOnes) :
    (valueExpl p (canonForm p x)).val = (valueExpl p x).val := by
  obtain ⟨d, -, hm, hexp⟩ := canonForm_shift h hj hx he
  have hk : ((max (canonForm p x).e 1 : ℕ) : ℤ) - p.B - p.F + d = (max x.e 1 : ℕ) - p.B - p.F := by omega
  rw [valueExpl_eq h hj, valueExpl_eq h hj, hm, Magnitude.val_mul_two_pow, hk]

/-- A canonical encoding has no place to move its mantissa to. -/
theorem canonForm_of_canonicalJ (h : p.legal = true) (hj : p.explicitJ = true) (hx : x.Fits p.E p.M)
    (he : x.e ≠ p.eOnes) (hc : CanonicalJ p x) : canonForm p x = x := by
  have hlt := (canonForm_fits h hx).2
  rw [Params.M_of_explicit h hj, Nat.pow_succ] at hlt
  rw [CanonicalJ, jBit_iff h hj hx] at hc
  obtain ⟨d, ⟨hd, hge, heq⟩ | ⟨hd, hsub, heq⟩⟩ := canonForm_cases h hj hx he
  · simp only [heq] at hlt
    have hd0 : d = 0 := by
      by_contra hne
      have hm : 2 ^ p.F ≤ x.m := hc.mpr (by omega)
      have hdouble : x.m * 2 ≤ x.m * 2 ^ d := Nat.mul_le_mul_left _ (Nat.le_self_pow hne 2)
      omega
    subst hd0
    rw [Nat.pow_zero, Nat.mul_one] at hge heq
    rw [heq, Nat.sub_zero, Nat.max_eq_left (Nat.one_le_iff_ne_zero.mpr (hc.mp hge))]
  · have hm : x.m < 2 ^ p.F := (Nat.le_mul_of_pos_right _ (Nat.two_pow_pos d)).trans_lt hsub
    have he0 : x.e = 0 := by
      by_contra hne
      exact absurd (hc.mpr hne) (Nat.not_le.mpr hm)
    obtain rfl : d = 0 := by omega
    rw [heq, Nat.pow_zero, Nat.mul_one, ← he0]

/-! ## Insertion and removal of the J bit -/

/-- The implicit encoding with the fields of an explicit one, its J bit left out. -/
def dropJ (p : Params) (x : Enc) : Enc := { x with m := x.m % 2 ^ p.F }

theorem dropJ_fits {n : Nat} (hx : x.Fits p.E n) : (dropJ p x).Fits p.E p.F := ⟨hx.1, Nat.mod_lt _ (Nat.two_pow_pos _)⟩

theorem jRemove_of_finite (he : x.e ≠ p.eOnes) : jRemove p x = dropJ p (canonForm p x) := by
  simp [jRemove, he, dropJ]

/-- J is 1 exactly where a finite exponent field is not 0 (41_jbit_adapter.md rule R93). -/
theorem jInsert_of_finite (hr : r.Fits p.E p.F) (he : r.e ≠ p.eOnes) :
    jInsert p r = { r with m := (if r.e = 0 then 0 else 2 ^ p.F) + r.m } := by
  have hones := p.eOnes_succ
  have hlt := hr.1
  have hiff : (1 ≤ r.e ∧ r.e ≤ 2 ^ p.E - 2) ↔ ¬ r.e = 0 := by omega
  simp only [jInsert, hiff, ite_not]

/-- The inserted J bit makes a finite encoding canonical. -/
theorem jInsert_canonicalJ (h : p.legal = true) (hj : p.explicitJ = true) (hr : r.Fits p.E p.F) (he : r.e ≠ p.eOnes) :
    CanonicalJ p (jInsert p r) := by
  have hm := hr.2
  rw [CanonicalJ, jBit_iff h hj (jInsert_fits h hj hr), jInsert_of_finite hr he]
  by_cases he0 : r.e = 0
  · simp [he0, hm]
  · simp [he0]

theorem dropJ_jInsert (hr : r.Fits p.E p.F) : dropJ p (jInsert p r) = r := by
  have hm := Nat.mod_eq_of_lt hr.2
  unfold dropJ jInsert
  split
  · simp [hm]
  · simp [hm]

theorem jBit_eq_false_of_canonicalJ (hc : CanonicalJ p x) (he : x.e = 0) : jBit p x = false :=
  Bool.eq_false_iff.mpr fun hJ => hc.mp hJ he

/-- In a canonical encoding the J bit says no more than the exponent field. -/
theorem jInsert_dropJ (h : p.legal = true) (hj : p.explicitJ = true) (hx : x.Fits p.E p.M) (he : x.e ≠ p.eOnes)
    (hc : CanonicalJ p x) : jInsert p (dropJ p x) = x := by
  have hm : (if x.e = 0 then 0 else 2 ^ p.F) + x.m % 2 ^ p.F = x.m := by
    split
    · next he0 => rw [Nat.zero_add, mantissa_of_not_jBit h hj hx (jBit_eq_false_of_canonicalJ hc he0)]
    · next he0 => exact mantissa_of_jBit h hj hx (hc.mpr he0)
  rw [jInsert_of_finite (dropJ_fits hx) he]
  exact congrArg (fun m => ({ x with m := m } : Enc)) hm

/-- A canonical encoding has the value of the implicit one with its fields (10_state.md rule R36). -/
theorem valueImpl_dropJ (h : p.legal = true) (hj : p.explicitJ = true) (hx : x.Fits p.E p.M) (hc : CanonicalJ p x) :
    valueImpl p (dropJ p x) = valueExpl p x := by
  by_cases he0 : x.e = 0
  · rw [valueExpl_of_subnormal h hj hx he0 (jBit_eq_false_of_canonicalJ hc he0), ← he0]
    rfl
  · rw [valueExpl_of_jBit h hj hx (hc.mpr he0), Nat.max_eq_left (Nat.one_le_iff_ne_zero.mpr he0)]
    rfl

/-- J_DROP of a finite encoding gives the implicit encoding of its value (41_jbit_adapter.md rule R96). -/
theorem jRemove_val (h : p.legal = true) (hj : p.explicitJ = true) (hx : x.Fits p.E p.M) (he : x.e ≠ p.eOnes) :
    (valueImpl p (jRemove p x)).val = (valueExpl p x).val := by
  rw [jRemove_of_finite he, valueImpl_dropJ h hj (canonForm_fits h hx) (canonForm_canonicalJ h hj hx he),
    canonForm_val h hj hx he]

theorem jRemove_s (h : p.legal = true) (hj : p.explicitJ = true) (hx : x.Fits p.E p.M) (he : x.e ≠ p.eOnes) :
    (jRemove p x).s = x.s := by
  rw [jRemove_of_finite he]
  exact canonForm_s h hj hx

theorem jInsert_jRemove (h : p.legal = true) (hj : p.explicitJ = true) (hx : x.Fits p.E p.M) (he : x.e ≠ p.eOnes) :
    jInsert p (jRemove p x) = canonForm p x := by
  rw [jRemove_of_finite he]
  exact jInsert_dropJ h hj (canonForm_fits h hx) (canonForm_e_ne_eOnes h hj hx he) (canonForm_canonicalJ h hj hx he)

/-- J_DROP undoes J_EXPAND, NaN payloads included (41_jbit_adapter.md rule R96). -/
theorem jRemove_jInsert (h : p.legal = true) (hj : p.explicitJ = true) (hr : r.Fits p.E p.F) :
    jRemove p (jInsert p r) = r := by
  by_cases he : r.e = p.eOnes
  · rw [jInsert_of_no_jBit (.inr he), jRemove, if_pos he, slice_zero_lo, Nat.mod_eq_of_lt hr.2, ← he]
    by_cases hm : r.m = 0
    · rw [if_pos hm, ← hm]
    · rw [if_neg hm, if_pos hm]
  · have he' : (jInsert p r).e ≠ p.eOnes := he
    rw [jRemove_of_finite he',
      canonForm_of_canonicalJ h hj (jInsert_fits h hj hr) he' (jInsert_canonicalJ h hj hr he), dropJ_jInsert hr]

/-- J_EXPAND keeps the value of a finite encoding (41_jbit_adapter.md rule R97). -/
theorem valueExpl_jInsert (h : p.legal = true) (hj : p.explicitJ = true) (hr : r.Fits p.E p.F) (he : r.e ≠ p.eOnes) :
    valueExpl p (jInsert p r) = valueImpl p r := by
  rw [← valueImpl_dropJ h hj (jInsert_fits h hj hr) (jInsert_canonicalJ h hj hr he), dropJ_jInsert hr]

theorem canonForm_idempotent (h : p.legal = true) (hj : p.explicitJ = true) (hx : x.Fits p.E p.M) :
    canonForm p (canonForm p x) = canonForm p x := by
  by_cases he : x.e = p.eOnes
  · simp only [canonForm_of_eOnes he]
  · exact canonForm_of_canonicalJ h hj (canonForm_fits h hx) (canonForm_e_ne_eOnes h hj hx he)
      (canonForm_canonicalJ h hj hx he)

/-- The canonical finite encodings are the results of J_EXPAND. -/
theorem canonicalJ_iff_exists_jInsert (h : p.legal = true) (hj : p.explicitJ = true) (hx : x.Fits p.E p.M)
    (he : x.e ≠ p.eOnes) : CanonicalJ p x ↔ ∃ r : Enc, r.Fits p.E p.F ∧ jInsert p r = x := by
  constructor
  · exact fun hc => ⟨dropJ p x, dropJ_fits hx, jInsert_dropJ h hj hx he hc⟩
  · rintro ⟨r, hr, rfl⟩
    exact jInsert_canonicalJ h hj hr he

end

/-- Settles O49: a canonical form is canonical, and `canon` moves nothing in a canonical encoding. -/
theorem canonIsIdempotentAndKeepsTheValue : Obligations.CanonIsIdempotentAndKeepsTheValue := by
  intro p x h hj hx
  exact ⟨canonForm_idempotent h hj hx, canonForm_s h hj hx, fun he =>
    ⟨canonForm_val h hj hx he, (jInsert_jRemove h hj hx he).symm⟩⟩

/-- Settles O52: a left inverse makes J_EXPAND injective, and a canonical encoding is what J_EXPAND makes of its own
fields. -/
theorem adapterRoundTrips : Obligations.AdapterRoundTrips := by
  intro p h hj
  refine ⟨fun r hr => jRemove_jInsert h hj hr, fun x hx he => ?_, fun x he hm => ?_, fun r r' hr hr' heq => ?_,
    fun x hx he => canonicalJ_iff_exists_jInsert h hj hx he⟩
  · exact ⟨jRemove_s h hj hx he, jRemove_val h hj hx he, jInsert_jRemove h hj hx he⟩
  · have hself : jRemove p x = x := by rw [jRemove, if_pos he, if_pos hm, ← he, ← hm]
    rw [hself, jInsert_of_no_jBit (.inr he)]
  · rw [← jRemove_jInsert h hj hr, heq, jRemove_jInsert h hj hr']

/-! ## The adapter on the ports -/

section
variable {s : State}

theorem exec_canon (h : s.params.legal = true) (hj : s.params.explicitJ = true) : exec .canon s = .next
    (s.respond (explicitWord s.params (canonForm s.params (explicitFields s.params (operandW s.params 2 s.a)))) 0) :=
  onExplicitInstance_of_explicit h hj fun p =>
    s.respond (explicitWord p (canonForm p (explicitFields p (operandW p Instr.canon.op s.a)))) 0

theorem exec_jExpand (h : s.params.legal = true) (hj : s.params.explicitJ = true) : exec .jExpand s = .next
    (s.respond (explicitWord s.params (jInsert s.params (implicitFields s.params (operandWI s.params s.a)))) 0) :=
  onExplicitInstance_of_explicit h hj fun p =>
    s.respond (explicitWord p (jInsert p (implicitFields p (operandWI p s.a)))) 0

theorem exec_jDrop (h : s.params.legal = true) (hj : s.params.explicitJ = true) : exec .jDrop s = .next
    (s.respond (implicitWord s.params (jRemove s.params (explicitFields s.params (operandW s.params 4 s.a)))) 0) :=
  onExplicitInstance_of_explicit h hj fun p =>
    s.respond (implicitWord p (jRemove p (explicitFields p (operandW p Instr.jDrop.op s.a)))) 0

/-- With EXPLICIT_J = 0 there is no adapter (60_exceptions.md rule R101). -/
theorem exec_adapter_of_implicit {i : Instr} (hi : i.needsExplicitJ = true) (h : s.params.legal = true)
    (hj : s.params.explicitJ = false) : exec i s = .next (s.raise .illegalOp) := by
  obtain rfl | rfl | rfl := Instr.needsExplicitJ_cases hi
  · unfold exec execCanon; exact onExplicitInstance_of_implicit h hj _
  · unfold exec execJExpand; exact onExplicitInstance_of_implicit h hj _
  · unfold exec execJDrop; exact onExplicitInstance_of_implicit h hj _

/-- The same ports under another SUB_AS_ZERO. -/
def State.withSubAsZero (s : State) (z : Bool) : State := { s with params := { s.params with subAsZero := z } }

/-- With EXPLICIT_J = 1 an adapter operation answers a value that does not depend on SUB_AS_ZERO. -/
theorem exec_adapter_of_explicit {i : Instr} (hi : i.needsExplicitJ = true) (h : s.params.legal = true)
    (hj : s.params.explicitJ = true) : ∃ y, exec i s = .next (s.respond y 0) ∧
      ∀ z, exec i (s.withSubAsZero z) = .next ((s.withSubAsZero z).respond y 0) := by
  have hz : ∀ z, (s.withSubAsZero z).params.legal = true :=
    Params.legal_withSubAsZero h (Params.ieee_of_explicitJ h hj)
  obtain rfl | rfl | rfl := Instr.needsExplicitJ_cases hi
  · exact ⟨_, exec_canon h hj, fun z => exec_canon (hz z) hj⟩
  · exact ⟨_, exec_jExpand h hj, fun z => exec_jExpand (hz z) hj⟩
  · exact ⟨_, exec_jDrop h hj, fun z => exec_jDrop (hz z) hj⟩

/-- The first half of rule R97 of 41_jbit_adapter.md: no error of ROUND, grs = 000, and SUB_AS_ZERO changes nothing. -/
theorem exec_adapter_response {i : Instr} (hi : i.needsExplicitJ = true) (h : s.params.legal = true) :
    ∃ t, exec i s = .next t ∧ t.grs = 0 ∧ t.err ≠ 3 ∧ t.err ≠ 4 ∧
      (s.params.kind = .ieee → ∀ z, ∃ u, exec i (s.withSubAsZero z) = .next u ∧
        u.y = t.y ∧ u.err = t.err ∧ u.grs = t.grs) := by
  cases hj : s.params.explicitJ with
  | true =>
    obtain ⟨y, hs, hz⟩ := exec_adapter_of_explicit hi h hj
    exact ⟨_, hs, rfl, by simp, by simp, fun _ z => ⟨_, hz z, rfl, rfl, rfl⟩⟩
  | false =>
    exact ⟨_, exec_adapter_of_implicit hi h hj, rfl, by simp [Err.code], by simp [Err.code], fun hk z =>
      ⟨_, exec_adapter_of_implicit hi (Params.legal_withSubAsZero h hk z) hj, rfl, rfl, rfl⟩⟩

end

/-- Settles O53: the three re-encodings keep sign and value, and none of them reads SUB_AS_ZERO. -/
theorem adapterNeitherRoundsNorFlushes : Obligations.AdapterNeitherRoundsNorFlushes := by
  refine ⟨fun i s hi h => exec_adapter_response hi h, fun s h hj => ⟨?_, ?_, ?_⟩⟩
  · rintro x rfl he
    have hx := unpack_fits s.params.E s.params.M (operandW s.params 2 s.a)
    exact ⟨_, exec_canon h hj, canonForm_fits h hx, canonForm_s h hj hx, canonForm_val h hj hx he⟩
  · rintro r rfl he
    have hr := unpack_fits s.params.E s.params.F (operandWI s.params s.a)
    exact ⟨_, exec_jExpand h hj, jInsert_fits h hj hr, rfl, congrArg Magnitude.val (valueExpl_jInsert h hj hr he)⟩
  · rintro x rfl he
    have hx := unpack_fits s.params.E s.params.M (operandW s.params 4 s.a)
    exact ⟨_, exec_jDrop h hj, jRemove_fits h hx, jRemove_s h hj hx he, jRemove_val h hj hx he⟩

/-- Settles O50: J_EXPAND packs the fields with the J bit at place F of the mantissa. -/
theorem jExpandInsertsTheJBit : Obligations.JExpandInsertsTheJBit := by
  intro s x h hj hx
  rw [exec_jExpand h hj, operandWI, ← hx, explicitWord, resultWord, pack, jInsert, ite_mul, Nat.one_mul, Nat.zero_mul,
    Nat.add_assoc (_ + _)]

end Machine
end Sys2Proof
end

section
/-! PROOF. The four errors of the block and their causes (60_exceptions.md rules R99 to R104). Two lemmas carry the file:
a request with a cause is answered by that error, and every other answer is a response without error. -/

namespace Sys2Proof

/-! ## What a control word decodes to, by its class -/

section
variable {c : Ctl}

theorem decode_of_asksRound (hc : AsksRound c) : ∃ mode, decode c = .instr (roundInstr mode (satField c)) := by
  obtain ⟨hop, hrm | hrm⟩ := hc
  · exact ⟨.rne, by simp [decode, hop, hrm, roundInstr]⟩
  · exact ⟨.trunc, by simp [decode, hop, hrm, roundInstr]⟩

theorem decode_of_adapterOp (hop : opField c = 2 ∨ opField c = 3 ∨ opField c = 4) :
    ∃ i, decode c = .instr i ∧ i.needsExplicitJ = true := by
  obtain hop | hop | hop := hop
  · exact ⟨.canon, by simp [decode, hop], rfl⟩
  · exact ⟨.jExpand, by simp [decode, hop], rfl⟩
  · exact ⟨.jDrop, by simp [decode, hop], rfl⟩

theorem decode_of_reservedOp (hop : opField c = 5 ∨ opField c = 6 ∨ opField c = 7) : decode c = .reject .illegalOp := by
  obtain hop | hop | hop := hop <;> simp [decode, hop]

theorem decode_of_raisesUnsupportedRm (hc : RaisesUnsupportedRm c) : decode c = .reject .unsupportedRm := by
  obtain ⟨hop, h0, h1⟩ := hc
  simp only [decode, hop]
  split
  · split
    case h_1 hn => exact absurd (BitVec.eq_of_toNat_eq hn) h0
    case h_2 hn => exact absurd (BitVec.eq_of_toNat_eq hn) h1
    case h_3 => rfl
  all_goals contradiction

theorem raisesIllegalOp_iff {p : Params} : RaisesIllegalOp p c ↔
    (opField c = 5 ∨ opField c = 6 ∨ opField c = 7) ∨
      (p.explicitJ = false ∧ (opField c = 2 ∨ opField c = 3 ∨ opField c = 4)) := by
  simp only [RaisesIllegalOp, or_assoc]

/-- The classes of the `op` field (30_encoding.md rule R50). -/
theorem op_cases (op : Code3) :
    op = 0 ∨ op = 1 ∨ (op = 2 ∨ op = 3 ∨ op = 4) ∨ (op = 5 ∨ op = 6 ∨ op = 7) := by
  revert op
  decide

end

namespace Machine

/-! ## The causes -/

/-- The condition under which the request on the ports raises the error (60_exceptions.md rules R101 to R104). -/
def Err.IsCausedBy (e : Err) (s : State) : Prop :=
  match e with
  | .illegalOp => RaisesIllegalOp s.params s.ctl
  | .unsupportedRm => RaisesUnsupportedRm s.ctl
  | .infUnsupported => AsksRound s.ctl ∧ F64IsInf s.a ∧ s.params.kind = .e4m3 ∧ satField s.ctl = false
  | .rangeExceeded => AsksRound s.ctl ∧ F64IsFiniteNonzero s.a ∧ ¬ InRange s.params (f64Abs s.a)

theorem Err.code_injective {e e' : Err} (h : e.code = e'.code) : e = e' := by
  cases e <;> cases e' <;> cases h <;> rfl

theorem Err.code_ne_zero (e : Err) : e.code ≠ 0 := by cases e <;> decide

theorem Err.code_le_four (e : Err) : e.code ≤ 4 := by cases e <;> decide

theorem isInf_of_decodeF64 {a : Word} {sgn : Bool} (hd : decodeF64 a = .inf sgn) : F64IsInf a := by
  rw [decodeF64, unpack_f64] at hd
  split_ifs at hd with he hf
  exact ⟨he, hf⟩

section
variable {s : State}

theorem step_of_instr {i : Instr} (hd : decode s.ctl = .instr i) : step s = exec i s := by
  rw [step_eq_answerDecoded, hd, answerDecoded]

theorem step_of_reject {r : Reject} (h : s.params.legal = true) (hd : decode s.ctl = .reject r) :
    step s = .next (s.raise (rejectError r)) := by
  rw [step_eq_answerDecoded, hd, answerDecoded, execReject_eq_next]
  exact ⟨h, rfl⟩

/-- ROUND answers the error of `round_core` as it is (40_rounding.md rules R62 and R63). -/
theorem step_of_roundCore_error {e : Err} (h : s.params.legal = true) (hc : AsksRound s.ctl)
    (hr : ∀ mode, roundCore s.params mode (satField s.ctl) (decodeF64 s.a) = .error e) :
    step s = .next (s.raise e) := by
  obtain ⟨mode, hd⟩ := decode_of_asksRound hc
  rw [step_of_instr hd, exec_roundInstr_of_error h (hr mode)]

/-- A request with a cause is answered by the error of that cause. -/
theorem step_of_isCausedBy {e : Err} (h : s.params.legal = true) (he : e.IsCausedBy s) : step s = .next (s.raise e) := by
  cases e with
  | illegalOp =>
    obtain hop | ⟨hj, hop⟩ := raisesIllegalOp_iff.mp he
    · exact step_of_reject h (decode_of_reservedOp hop)
    · obtain ⟨i, hd, hi⟩ := decode_of_adapterOp hop
      rw [step_of_instr hd, exec_adapter_of_implicit hi h hj]
  | unsupportedRm => exact step_of_reject h (decode_of_raisesUnsupportedRm he)
  | infUnsupported =>
    obtain ⟨hc, ha, hk, hsat⟩ := he
    exact step_of_roundCore_error h hc fun mode => by
      simp [decodeF64_of_isInf ha, roundCore, Params.hasInf, hk, hsat]
  | rangeExceeded =>
    obtain ⟨hc, ha, hr⟩ := he
    obtain ⟨x, hd⟩ := exists_decodeF64_eq_finite ha
    exact step_of_roundCore_error h hc fun mode => roundCore_of_outOfRange hd hr

/-- Of a request that asks for a rounding only the operand can be at fault. -/
theorem step_cases_of_asksRound (h : s.params.legal = true) (hc : AsksRound s.ctl) :
    (∃ y g, step s = .next (s.respond y g)) ∨ ∃ e : Err, step s = .next (s.raise e) ∧ e.IsCausedBy s := by
  obtain ⟨mode, hd⟩ := decode_of_asksRound hc
  rw [step_of_instr hd]
  obtain ⟨sgn, code, g, hr⟩ | ⟨hr, hinf, hsat, sgn, ha⟩ | ⟨hr, sgn, x, ha, hout⟩ :=
    roundCore_cases s.params mode (satField s.ctl) (decodeF64 s.a)
  · exact .inl ⟨_, _, exec_roundInstr_of_ok h hr⟩
  · have hk : s.params.kind = .e4m3 := by
      by_contra hk
      simp [Params.hasInf_of_kind hk] at hinf
    exact .inr ⟨_, exec_roundInstr_of_error h hr, hc, isInf_of_decodeF64 ha, hk, hsat⟩
  · have hin : ¬ InRange s.params (f64Abs s.a) := by
      rw [← val_eq_f64Abs ha, ← outOfRange_eq_false_iff, hout]
      decide
    exact .inr ⟨_, exec_roundInstr_of_error h hr, hc, isFiniteNonzero_of_decodeF64 ha, hin⟩

/-- Every answer is a response without error or the error of a cause that the request has. -/
theorem step_cases (h : s.params.legal = true) :
    (∃ y g, step s = .next (s.respond y g)) ∨ ∃ e : Err, step s = .next (s.raise e) ∧ e.IsCausedBy s := by
  obtain hop | hop | hop | hop := op_cases (opField s.ctl)
  · by_cases hrm : rmField s.ctl = 0 ∨ rmField s.ctl = 1
    · exact step_cases_of_asksRound h ⟨hop, hrm⟩
    · have he : Err.unsupportedRm.IsCausedBy s := ⟨hop, not_or.mp hrm⟩
      exact .inr ⟨_, step_of_isCausedBy h he, he⟩
  · have hd : decode s.ctl = .instr .toF64 := by simp [decode, hop]
    exact .inl ⟨_, _, by rw [step_of_instr hd, exec_toF64 h]⟩
  · cases hj : s.params.explicitJ with
    | true =>
      obtain ⟨i, hd, hi⟩ := decode_of_adapterOp hop
      obtain ⟨y, hy, -⟩ := exec_adapter_of_explicit hi h hj
      exact .inl ⟨y, 0, by rw [step_of_instr hd, hy]⟩
    | false =>
      have he : Err.illegalOp.IsCausedBy s := raisesIllegalOp_iff.mpr (.inr ⟨hj, hop⟩)
      exact .inr ⟨_, step_of_isCausedBy h he, he⟩
  · have he : Err.illegalOp.IsCausedBy s := raisesIllegalOp_iff.mpr (.inl hop)
    exact .inr ⟨_, step_of_isCausedBy h he, he⟩

theorem exec_of_not_legal (h : s.params.legal = false) (i : Instr) : exec i s = .refused .noInstance := by
  cases i with
  | roundRne sat => simp [exec, execRoundRne, h]
  | roundTrunc sat => simp [exec, execRoundTrunc, h]
  | toF64 => simp [exec, execToF64, h]
  | canon => simp [exec, execCanon, onExplicitInstance, h]
  | jExpand => simp [exec, execJExpand, onExplicitInstance, h]
  | jDrop => simp [exec, execJDrop, onExplicitInstance, h]

/-- Parameters that are no legal combination have no answer (00_scope.md rule R11). -/
theorem legal_of_step {t : State} (ht : step s = .next t) : s.params.legal = true := by
  rw [step_eq_answerDecoded] at ht
  cases hd : decode s.ctl with
  | reject r =>
    rw [hd, answerDecoded, execReject_eq_next] at ht
    exact ht.1
  | instr i =>
    rw [hd, answerDecoded] at ht
    by_contra h
    rw [exec_of_not_legal (Bool.eq_false_iff.mpr h)] at ht
    cases ht

/-- `step_cases` for the state after the step. -/
theorem next_cases {t : State} (ht : step s = .next t) :
    (∃ y g, t = s.respond y g) ∨ ∃ e : Err, t = s.raise e ∧ e.IsCausedBy s := by
  obtain ⟨y, g, hs⟩ | ⟨e, hs, he⟩ := step_cases (legal_of_step ht)
  · exact .inl ⟨y, g, Host.Outcome.next.inj (ht.symm.trans hs)⟩
  · exact .inr ⟨e, Host.Outcome.next.inj (ht.symm.trans hs), he⟩

/-- The code on `err` names the cause: two causes never meet, since one request has one answer. -/
theorem err_eq_code_iff {t : State} (ht : step s = .next t) (e : Err) : t.err = e.code ↔ e.IsCausedBy s := by
  constructor
  · intro herr
    obtain ⟨y, g, rfl⟩ | ⟨e', rfl, he'⟩ := next_cases ht
    · exact absurd herr.symm e.code_ne_zero
    · exact Err.code_injective herr ▸ he'
  · intro he
    rw [Host.Outcome.next.inj (ht.symm.trans (step_of_isCausedBy (legal_of_step ht) he)), State.raise_err]

/-- No code beyond those of 60_exceptions.md rule R99 is driven. -/
theorem err_le_four {t : State} (ht : step s = .next t) : t.err ≤ 4 := by
  obtain ⟨y, g, rfl⟩ | ⟨e, rfl, -⟩ := next_cases ht
  · simp
  · exact e.code_le_four

end

/-- Settles O9: a request with a cause is answered by its error, and an answer with an error has its cause. -/
theorem errorCodeHasItsCause : Obligations.ErrorCodeHasItsCause := by
  intro s h
  obtain ⟨t, ht⟩ : ∃ t, step s = .next t := by
    obtain ⟨y, g, hs⟩ | ⟨e, hs, -⟩ := step_cases h <;> exact ⟨_, hs⟩
  have hle := err_le_four ht
  exact ⟨t, ht, err_eq_code_iff ht .illegalOp, err_eq_code_iff ht .unsupportedRm, err_eq_code_iff ht .infUnsupported,
    err_eq_code_iff ht .rangeExceeded, by bv_omega, by bv_omega, by bv_omega⟩

/-- Settles O7: a reserved op, or an adapter op with EXPLICIT_J = 0, is a cause, so it is answered by its error. -/
theorem illegalOpIsRaised : Obligations.IllegalOpIsRaised :=
  fun _ h he => step_of_isCausedBy (e := .illegalOp) h he

/-- Settles O8: the decoder rejects the mode before the operand is looked at. -/
theorem unsupportedModeIsRaised : Obligations.UnsupportedModeIsRaised :=
  fun _ h he => step_of_isCausedBy (e := .unsupportedRm) h he

/-- Settles O10: an answer with an error is an error response, and a response without error has err = 0. -/
theorem errorResponseCarriesNoResult : Obligations.ErrorResponseCarriesNoResult := by
  intro s t ht herr
  obtain ⟨y, g, rfl⟩ | ⟨e, rfl, -⟩ := next_cases ht
  · exact absurd rfl herr
  · exact ⟨rfl, rfl⟩

end Machine
end Sys2Proof
end

section
/-! PROOF. No response depends on history (70_reset_and_hazards.md rule R117): an answer drives all three outputs anew, and
nothing that leads to it reads them. -/

namespace Sys2Proof.Machine

/-- The same instance and request, with other values held on the output ports. -/
def State.withOutputs (s : State) (y : Word) (e g : Code3) : State := { s with y := y, err := e, grs := g }

section
variable (s : State) (y : Word) (e g : Code3)

@[simp] theorem State.withOutputs_params : (s.withOutputs y e g).params = s.params := rfl
@[simp] theorem State.withOutputs_ctl : (s.withOutputs y e g).ctl = s.ctl := rfl
@[simp] theorem State.withOutputs_a : (s.withOutputs y e g).a = s.a := rfl

@[simp] theorem State.respond_withOutputs (v : Word) (grs : Code3) :
    (s.withOutputs y e g).respond v grs = s.respond v grs := rfl

@[simp] theorem State.raise_withOutputs (err : Err) : (s.withOutputs y e g).raise err = s.raise err := rfl

@[simp] theorem State.answer_withOutputs (r : Except Err (Word × Code3)) :
    (s.withOutputs y e g).answer r = s.answer r := by
  cases r with
  | ok v => rfl
  | error err => rfl

@[simp] theorem onInstance_withOutputs (k : Params → State) : onInstance (s.withOutputs y e g) k = onInstance s k := rfl

@[simp] theorem onExplicitInstance_withOutputs (k : Params → State) :
    onExplicitInstance (s.withOutputs y e g) k = onExplicitInstance s k := rfl

theorem exec_withOutputs (i : Instr) : exec i (s.withOutputs y e g) = exec i s := by
  cases i with
  | roundRne sat => simp [exec, execRoundRne]
  | roundTrunc sat => simp [exec, execRoundTrunc]
  | toF64 => simp [exec, execToF64]
  | canon => simp [exec, execCanon]
  | jExpand => simp [exec, execJExpand]
  | jDrop => simp [exec, execJDrop]

theorem execReject_withOutputs (r : Reject) : execReject r (s.withOutputs y e g) = execReject r s := by
  simp [execReject]

theorem step_withOutputs : step (s.withOutputs y e g) = step s := by
  rw [step_eq_answerDecoded, step_eq_answerDecoded, State.withOutputs_ctl]
  cases decode s.ctl with
  | instr i => exact exec_withOutputs s y e g i
  | reject r => exact execReject_withOutputs s y e g r

end

/-- States with the same instance and request differ in their outputs alone. -/
theorem State.eq_withOutputs {s s' : State} (hp : s'.params = s.params) (hc : s'.ctl = s.ctl) (ha : s'.a = s.a) :
    s' = s.withOutputs s'.y s'.err s'.grs := by
  rw [State.withOutputs, ← hp, ← hc, ← ha]

/-- Settles O14: the two states differ in their outputs, which no answer reads. -/
theorem responseDependsOnTheRequestAlone : Obligations.ResponseDependsOnTheRequestAlone := by
  intro s s' hp hc ha
  rw [State.eq_withOutputs hp hc ha, step_withOutputs]

end Sys2Proof.Machine
end

section
/-! PROOF. Which requests are answered, what an answer writes, and how the outputs follow the request (00_scope.md rule R11,
30_encoding.md rules R53, R57 and R60, 70_reset_and_hazards.md rules R112 to R117). -/

namespace Sys2Proof

/-! ## The control words -/

/-- Settles O1: each word is decoded by evaluation. -/
theorem decodeReadsTheSpecWords : Obligations.DecodeReadsTheSpecWords := by
  unfold Obligations.DecodeReadsTheSpecWords
  decide

/-- Settles O2: the encoder has one word for each operation, or one for each value of `sat`. -/
theorem decodeInvertsEncode : Obligations.DecodeInvertsEncode := by
  intro i
  cases i with
  | roundRne sat => revert sat; decide
  | roundTrunc sat => revert sat; decide
  | toF64 => rfl
  | canon => rfl
  | jExpand => rfl
  | jDrop => rfl

theorem Instr.roundRne_op (sat : Bool) : (Instr.roundRne sat).op = 0 := by revert sat; decide

theorem Instr.roundTrunc_op (sat : Bool) : (Instr.roundTrunc sat).op = 0 := by revert sat; decide

/-! ## The legal instances -/

theorem Params.F_eq_sub (p : Params) : p.F = p.M - p.explicitJ.toNat := by
  unfold Params.F
  cases p.explicitJ <;> rfl

/-- The ranges of 00_scope.md rule R11, one by one. -/
theorem Params.legal_iff (p : Params) : p.legal = true ↔
    2 ≤ p.E ∧ p.E ≤ 11 ∧ 1 ≤ p.M - p.explicitJ.toNat ∧ p.M - p.explicitJ.toNat ≤ 52 ∧
      (p.kind = .e4m3 → p.E = 4 ∧ p.M = 3 ∧ p.explicitJ = false ∧ p.subAsZero = false) ∧
      (p.kind = .e5m2 → p.E = 5 ∧ p.M = 2 ∧ p.explicitJ = false ∧ p.subAsZero = false) := by
  unfold Params.legal
  rw [← Params.F_eq_sub]
  cases p.kind with
  | ieee => simp [and_assoc]
  | e4m3 => simp [and_assoc]
  | e5m2 => simp [and_assoc]

/-- Only the IEEE kind flushes (00_scope.md rule R11). -/
theorem Params.ieee_of_subAsZero {p : Params} (h : p.legal = true) (hz : p.subAsZero = true) : p.kind = .ieee := by
  obtain ⟨-, -, -, -, he4m3, he5m2⟩ := p.legal_iff.mp h
  cases hk : p.kind with
  | ieee => rfl
  | e4m3 => simp [(he4m3 hk).2.2.2] at hz
  | e5m2 => simp [(he5m2 hk).2.2.2] at hz

namespace Machine

section
variable {s t : State}

theorem exists_step (h : s.params.legal = true) : ∃ t, step s = .next t := by
  obtain ⟨y, g, hs⟩ | ⟨e, hs, -⟩ := step_cases h <;> exact ⟨_, hs⟩

theorem step_of_not_legal (h : s.params.legal = false) : step s = .refused .noInstance := by
  rw [step_eq_answerDecoded]
  cases decode s.ctl with
  | instr i => exact exec_of_not_legal h i
  | reject r => exact onInstance_of_not_legal h fun _ => s.raise (rejectError r)

theorem legal_of_exec {i : Instr} (ht : exec i s = .next t) : s.params.legal = true := by
  by_contra h
  rw [exec_of_not_legal (Bool.eq_false_iff.mpr h)] at ht
  cases ht

/-- `next_cases` for an operation run by itself. -/
theorem exec_next_cases {i : Instr} (ht : exec i s = .next t) :
    (∃ y g, t = s.respond y g) ∨ ∃ e : Err, t = s.raise e := by
  have h := legal_of_exec ht
  have hround : ∀ mode sat, exec (roundInstr mode sat) s = .next t →
      (∃ y g, t = s.respond y g) ∨ ∃ e : Err, t = s.raise e := fun mode sat hr => by
    rw [exec_roundInstr h] at hr
    obtain ⟨y, g, -, ha⟩ | ⟨e, -, ha⟩ := s.answer_cases (roundAnswer s.params mode sat s.a)
    · exact .inl ⟨y, g, ha ▸ (Host.Outcome.next.inj hr).symm⟩
    · exact .inr ⟨e, ha ▸ (Host.Outcome.next.inj hr).symm⟩
  have hadapter : i.needsExplicitJ = true → (∃ y g, t = s.respond y g) ∨ ∃ e : Err, t = s.raise e := fun hi => by
    cases hj : s.params.explicitJ with
    | true =>
      obtain ⟨y, hy, -⟩ := exec_adapter_of_explicit hi h hj
      exact .inl ⟨y, 0, Host.Outcome.next.inj (ht.symm.trans hy)⟩
    | false => exact .inr ⟨_, Host.Outcome.next.inj (ht.symm.trans (exec_adapter_of_implicit hi h hj))⟩
  cases i with
  | roundRne sat => exact hround .rne sat ht
  | roundTrunc sat => exact hround .trunc sat ht
  | toF64 => exact .inl ⟨_, _, Host.Outcome.next.inj (ht.symm.trans (exec_toF64 h))⟩
  | canon => exact hadapter rfl
  | jExpand => exact hadapter rfl
  | jDrop => exact hadapter rfl

theorem eq_withOutputs_of_exec {i : Instr} (ht : exec i s = .next t) : t = s.withOutputs t.y t.err t.grs := by
  obtain ⟨y, g, rfl⟩ | ⟨e, rfl⟩ := exec_next_cases ht <;> rfl

theorem eq_withOutputs_of_step (ht : step s = .next t) : t = s.withOutputs t.y t.err t.grs := by
  obtain ⟨y, g, rfl⟩ | ⟨e, rfl, -⟩ := next_cases ht <;> rfl

theorem params_of_step (ht : step s = .next t) : t.params = s.params := by
  obtain ⟨y, g, rfl⟩ | ⟨e, rfl, -⟩ := next_cases ht <;> rfl

theorem ctl_of_step (ht : step s = .next t) : t.ctl = s.ctl := by
  obtain ⟨y, g, rfl⟩ | ⟨e, rfl, -⟩ := next_cases ht <;> rfl

/-- The state after an answer shows the answer to its own request. -/
theorem settled_of_step (ht : step s = .next t) : Settled t := by
  have heq : step t = step s := by rw [eq_withOutputs_of_step ht, step_withOutputs]
  exact heq.trans ht

/-- Where the request is answered, the outputs that follow it are that answer (70_reset_and_hazards.md rule R112). -/
theorem settle_of_step (ht : step s = .next t) : s.settle = t :=
  (State.settle_of_next ht).trans (eq_withOutputs_of_step ht).symm

end

/-- Settles O4: the two outcomes of the decoder. -/
theorem stepRunsTheDecodedOperation : Obligations.StepRunsTheDecodedOperation :=
  fun _ => ⟨fun _ hd => step_of_instr hd, fun _ hd h => step_of_reject h hd⟩

/-- Settles O11: in a legal instance every case of a step is a next state. -/
theorem everyRequestIsAnswered : Obligations.EveryRequestIsAnswered := fun _ h => exists_step h

/-- Settles O12: the ranges are those of a legal instance, and an operation of any other is refused. -/
theorem instanceOutsideTheRangesIsRefused : Obligations.InstanceOutsideTheRangesIsRefused := by
  intro s
  rw [← Params.legal_iff, Bool.not_eq_true]
  exact ⟨exists_step, step_of_not_legal⟩

/-- Settles O13: an answer is a response or an error response, and both drive the outputs alone. -/
theorem operationsWriteOnlyTheOutputs : Obligations.OperationsWriteOnlyTheOutputs :=
  ⟨fun _ _ _ ht => eq_withOutputs_of_exec ht, fun _ _ ht => eq_withOutputs_of_step ht⟩

/-- Settles O16: the answer leaves the request on the ports, and no answer reads the outputs. -/
theorem answeringIsIdempotent : Obligations.AnsweringIsIdempotent := fun _ _ ht => settled_of_step ht

/-- Settles O54: a presented request is settled, that is answered at once. -/
theorem outputsFollowTheRequestAtOnce : Obligations.OutputsFollowTheRequestAtOnce := by
  intro s rq h
  obtain ⟨t, ht⟩ := exists_step (s := { s with ctl := rq.ctl, a := rq.a }) h
  have hp : s.present rq = t := settle_of_step ht
  exact ⟨t, ht, hp, settled_of_step ht, hp ▸ s.present_params rq, hp ▸ s.present_ctl rq, hp ▸ s.present_a rq⟩

/-- Settles O15: after an answer only the outputs differ, and the answer to the next request does not read them. -/
theorem requestsDoNotInteract : Obligations.RequestsDoNotInteract := by
  intro s t rq ht
  have h := legal_of_step ht
  obtain ⟨u, hu⟩ := exists_step (s := { s with ctl := rq.ctl, a := rq.a }) h
  have hu' : step { t with ctl := rq.ctl, a := rq.a } = .next u := by
    rw [eq_withOutputs_of_step ht]
    exact (step_withOutputs { s with ctl := rq.ctl, a := rq.a } _ _ _).trans hu
  have heq : t.present rq = s.present rq := (settle_of_step hu').trans (settle_of_step hu).symm
  exact ⟨heq, congrArg step heq⟩

/-- Settles O17: ROUND.RNE of +0 is evaluated. -/
theorem resetAnswersItsRequest : Obligations.ResetAnswersItsRequest := by
  unfold Obligations.ResetAnswersItsRequest
  rfl

/-! ## The operand width -/

/-- Operands that agree in the low W bits are one operand; with W = 65 they agree altogether. -/
theorem operandW_congr {p : Params} {a b : Word} (hab : slice a.toNat 0 p.W = slice b.toNat 0 p.W) (op : Code3) :
    operandW p op a = operandW p op b := by
  by_cases hW : p.W ≤ 64
  · simp only [operandW, hW, if_true, hab]
  · have hlt : ∀ c : Word, c.toNat < 2 ^ p.W := fun c =>
      c.isLt.trans_le (Nat.pow_le_pow_right (by decide) (by omega))
    rw [slice_zero_lo, slice_zero_lo, Nat.mod_eq_of_lt (hlt a), Nat.mod_eq_of_lt (hlt b)] at hab
    rw [BitVec.eq_of_toNat_eq hab]

theorem op_of_decode {c : Ctl} {i : Instr} (hd : decode c = .instr i) : i.op = opField c := by
  unfold decode at hd
  split at hd
  case h_1 hop =>
    have hop0 : opField c = 0 := BitVec.eq_of_toNat_eq hop
    split at hd
    · cases hd; rw [hop0, Instr.roundRne_op]
    · cases hd; rw [hop0, Instr.roundTrunc_op]
    · cases hd
  case h_6 => cases hd
  all_goals
    next hop =>
      cases hd
      exact (BitVec.eq_of_toNat_eq hop).symm

section
variable {s : State} {a : Word}

theorem onInstance_withOperand (h : s.params.legal = true) {k k' : Params → State}
    (hk : k' s.params = { k s.params with a := a }) :
    ∃ t, onInstance s k = .next t ∧ onInstance { s with a := a } k' = .next { t with a := a } :=
  ⟨_, onInstance_of_legal h k, hk ▸ onInstance_of_legal (s := { s with a := a }) h k'⟩

theorem onExplicitInstance_withOperand (h : s.params.legal = true) {k k' : Params → State}
    (hk : k' s.params = { k s.params with a := a }) :
    ∃ t, onExplicitInstance s k = .next t ∧ onExplicitInstance { s with a := a } k' = .next { t with a := a } := by
  refine onInstance_withOperand h ?_
  cases s.params.explicitJ with
  | true => exact hk
  | false => rfl

/-- Every operation but ROUND reads the operand through `operandW` or, J_EXPAND, through `operandWI`. -/
theorem exec_withOperand {i : Instr} (h : s.params.legal = true) (hi : i.op ≠ 0)
    (hab : slice a.toNat 0 (if i.op = 3 then s.params.WI else s.params.W) =
      slice s.a.toNat 0 (if i.op = 3 then s.params.WI else s.params.W)) :
    ∃ t, exec i s = .next t ∧ exec i { s with a := a } = .next { t with a := a } := by
  cases i with
  | roundRne sat => exact absurd (Instr.roundRne_op sat) hi
  | roundTrunc sat => exact absurd (Instr.roundTrunc_op sat) hi
  | toF64 =>
    have hW := operandW_congr hab Instr.toF64.op
    unfold exec execToF64; exact onInstance_withOperand h (by dsimp only; rw [hW]; rfl)
  | canon =>
    have hW := operandW_congr hab Instr.canon.op
    unfold exec execCanon; exact onExplicitInstance_withOperand h (by dsimp only; rw [hW]; rfl)
  | jExpand =>
    have hWI : operandWI s.params a = operandWI s.params s.a := hab
    unfold exec execJExpand; exact onExplicitInstance_withOperand h (by dsimp only; rw [hWI]; rfl)
  | jDrop =>
    have hW := operandW_congr hab Instr.jDrop.op
    unfold exec execJDrop; exact onExplicitInstance_withOperand h (by dsimp only; rw [hW]; rfl)

end

/-- Settles O6: the operation that the word names reads the operand's own bits only, and a rejected word reads none. -/
theorem operandBitsAboveTheWidthAreIgnored : Obligations.OperandBitsAboveTheWidthAreIgnored := by
  intro s a h hop hab
  cases hd : decode s.ctl with
  | instr i =>
    rw [← op_of_decode hd] at hop hab
    obtain ⟨t, ht, ht'⟩ := exec_withOperand h hop hab
    exact ⟨t, _, (step_of_instr hd).trans ht, (step_of_instr (s := { s with a := a }) hd).trans ht', rfl, rfl, rfl⟩
  | reject r => exact ⟨_, _, step_of_reject h hd, step_of_reject (s := { s with a := a }) h hd, rfl, rfl, rfl⟩

end Machine
end Sys2Proof
end

section
/-! PROOF. The order of the finite magnitude codes, the values of the catalog codes, and which encodings are finite
(10_state.md sections 2 to 4). -/

namespace Sys2Proof

theorem Params.one_le_B {p : Params} (h : p.legal = true) : 1 ≤ p.B := by
  have h3 := Params.eOnes_ge h
  rw [Params.eOnes_eq h] at h3
  omega

theorem Params.three_le_B {p : Params} (hE : 3 ≤ p.E) : 3 ≤ p.B := by
  have hpow : 2 ^ 2 ≤ 2 ^ (p.E - 1) := Nat.pow_le_pow_right (by decide) (by omega)
  simp only [Params.B]
  omega

namespace Machine

/-- Settles O21: the next code is one quantum more. -/
theorem magnitudeCodesOrderTheValues : Obligations.MagnitudeCodesOrderTheValues := by
  intro p c c' h hlt hc'
  rw [codeVal_of_finite h hc', codeVal_of_finite h (hlt.le.trans hc')]
  exact codeMagnitude_val_lt_iff.mpr hlt

/-! ## The catalog -/

section
variable {p : Params}

/-- `codeMagnitude_val` for the codes below the all-ones exponent field. -/
theorem codeVal_quanta (h : p.legal = true) {j Q : Nat} (hj : j = 0 ∨ 2 ^ p.F ≤ Q) (hQ : Q < 2 ^ (p.F + 1))
    (hj2 : j + 2 ≤ 2 * p.B + 1) : codeVal p (j * 2 ^ p.F + Q) = (Q : ℚ) * 2 ^ ((j : ℤ) + 1 - p.B - p.F) := by
  have hlt : j * 2 ^ p.F + Q < p.infCode := by
    calc j * 2 ^ p.F + Q < j * 2 ^ p.F + 2 ^ (p.F + 1) := by omega
      _ = (j + 2) * 2 ^ p.F := by ring
      _ ≤ p.infCode := Nat.mul_le_mul_right _ (by rw [Params.eOnes_eq h]; exact hj2)
  rw [codeVal_eq (hlt.trans p.infCode_lt), codeMagnitude_val hj hQ.le]

/-- A code up to the smallest normal counts the least quanta. -/
theorem codeVal_of_le_smallestNormal (h : p.legal = true) {c : Nat} (hc : c ≤ 2 ^ p.F) :
    codeVal p c = (c : ℚ) * 2 ^ (1 - (p.B : ℤ) - p.F) := by
  have hB := Params.one_le_B h
  have hQ : c < 2 ^ (p.F + 1) := hc.trans_lt (Nat.pow_lt_pow_succ (by decide))
  have hval := codeVal_quanta h (j := 0) (.inl rfl) hQ (by omega)
  simpa using hval

theorem codeVal_smallestNormalCode (h : p.legal = true) : codeVal p p.smallestNormalCode = 2 ^ (1 - (p.B : ℤ)) := by
  rw [Params.smallestNormalCode, codeVal_of_le_smallestNormal h le_rfl, Nat.cast_pow, Nat.cast_ofNat, ← zpow_natCast,
    ← zpow_add₀ two_ne_zero]
  congr 1
  ring

theorem codeVal_largestSubnormalCode (h : p.legal = true) :
    codeVal p p.largestSubnormalCode = (2 ^ p.F - 1) * 2 ^ (1 - (p.B : ℤ) - p.F) := by
  rw [Params.largestSubnormalCode, codeVal_of_le_smallestNormal h (Nat.sub_le _ _),
    Nat.cast_pred (Nat.two_pow_pos p.F), Nat.cast_pow, Nat.cast_ofNat]

theorem codeVal_oneCode (h : p.legal = true) : codeVal p p.oneCode = 1 := by
  have hB := Params.one_le_B h
  have hcode : p.oneCode = (p.B - 1) * 2 ^ p.F + 2 ^ p.F := by
    rw [← Nat.succ_mul, Nat.succ_eq_add_one, Nat.sub_add_cancel hB]
    rfl
  rw [hcode, codeVal_quanta h (.inr le_rfl) (Nat.pow_lt_pow_succ (by decide)) (by omega), Nat.cast_pow, Nat.cast_ofNat,
    ← zpow_natCast, ← zpow_add₀ two_ne_zero, Nat.cast_pred hB]
  ring_nf
  rfl

theorem codeVal_smallestAboveOneCode (h : p.legal = true) : codeVal p p.smallestAboveOneCode = 1 + 1 / 2 ^ p.F := by
  have hB := Params.one_le_B h
  have hF := Nat.one_lt_two_pow (Nat.one_le_iff_ne_zero.mp (p.legal_bounds h).2.2.1)
  have hcode : p.smallestAboveOneCode = (p.B - 1) * 2 ^ p.F + (2 ^ p.F + 1) := by
    rw [← Nat.add_assoc, ← Nat.succ_mul, Nat.succ_eq_add_one, Nat.sub_add_cancel hB]
    rfl
  have hexp : ((p.B - 1 : ℕ) : ℤ) + 1 - p.B - p.F = -(p.F : ℤ) := by omega
  rw [hcode, codeVal_quanta h (.inr (Nat.le_succ _)) (by rw [Nat.pow_succ]; omega) (by omega), hexp, zpow_neg,
    zpow_natCast]
  push_cast
  field_simp

theorem codeVal_largestBelowOneCode (h : p.legal = true) (hE : 3 ≤ p.E) :
    codeVal p p.largestBelowOneCode = 1 - 1 / 2 ^ (p.F + 1) := by
  have hB := Params.three_le_B hE
  have hpos := Nat.two_pow_pos p.F
  have hcode : p.largestBelowOneCode = (p.B - 2) * 2 ^ p.F + (2 ^ (p.F + 1) - 1) := by
    rw [Params.largestBelowOneCode, Nat.sub_mul, Nat.pow_succ]
    have := Nat.mul_le_mul_right (2 ^ p.F) hB
    omega
  have hexp : ((p.B - 2 : ℕ) : ℤ) + 1 - p.B - p.F = -((p.F + 1 : ℕ) : ℤ) := by omega
  rw [hcode, codeVal_quanta h (.inr (by rw [Nat.pow_succ]; omega)) (Nat.sub_lt (Nat.two_pow_pos _) (by decide))
    (by omega), hexp, zpow_neg, zpow_natCast, Nat.cast_pred (Nat.two_pow_pos _)]
  push_cast
  field_simp

theorem codeVal_maxfCode_ieee (h : p.legal = true) (hk : p.kind = .ieee) :
    codeVal p p.maxfCode = (2 - 1 / 2 ^ p.F) * 2 ^ p.B := by
  have hB := Params.one_le_B h
  have hpos := Nat.two_pow_pos p.F
  have hcode : p.maxfCode = (2 * p.B - 1) * 2 ^ p.F + (2 ^ (p.F + 1) - 1) := by
    have hsucc := Params.maxfCode_succ h (by simp [hk])
    rw [Params.infCode, Params.eOnes_eq h, Nat.add_mul] at hsucc
    rw [Nat.sub_mul, Nat.pow_succ]
    have := Nat.mul_le_mul_right (2 ^ p.F) (show 1 ≤ 2 * p.B by omega)
    omega
  have hexp : ((2 * p.B - 1 : ℕ) : ℤ) + 1 - p.B - p.F = (p.B : ℤ) - p.F := by omega
  rw [hcode, codeVal_quanta h (.inr (by rw [Nat.pow_succ]; omega)) (Nat.sub_lt (Nat.two_pow_pos _) (by decide))
    (by omega), hexp, zpow_sub₀ two_ne_zero, zpow_natCast, zpow_natCast, Nat.cast_pred (Nat.two_pow_pos _)]
  push_cast
  field_simp
  ring

end

/-- Settles O22: each catalog code is a number of quanta in its binade. -/
theorem catalogCodesHaveTheirValues : Obligations.CatalogCodesHaveTheirValues := by
  intro p h
  have hone := Nat.one_le_two_pow (n := p.F)
  have hsub : codeVal p p.smallestSubnormalCode = 2 ^ (1 - (p.B : ℤ) - p.F) := by
    rw [Params.smallestSubnormalCode, codeVal_of_le_smallestNormal h hone, Nat.cast_one, one_mul]
  refine ⟨by simp [Params.zeroCode, codeVal_of_le_smallestNormal h], hsub, codeVal_smallestNormalCode h,
    codeVal_largestSubnormalCode h, codeVal_oneCode h, codeVal_smallestAboveOneCode h, codeVal_largestBelowOneCode h,
    codeVal_maxfCode_ieee h, fun hk => ?_, fun hk => ?_⟩
  · have hp := Params.legal_e4m3 h hk
    rw [codeVal_of_finite h le_rfl, codeMagnitude_maxfCode_val_e4m3 hp, hsub, hp]
    exact ⟨rfl, by norm_num [Params.B, Params.F, Params.e4m3]⟩
  · have hp := Params.legal_e5m2 h hk
    rw [codeVal_of_finite h le_rfl, codeMagnitude_maxfCode_val_e5m2 hp, hsub, hp]
    exact ⟨rfl, by norm_num [Params.B, Params.F, Params.e5m2]⟩

/-! ## The finite encodings -/

section
variable {p : Params} {x : Enc}

/-- Where the all-ones exponent field holds no finite value, it is what NaN and infinity have (10_state.md rule R28). -/
theorem finite_iff_e_ne_eOnes (hk : p.kind ≠ .e4m3) (x : Enc) :
    (classify p x ≠ .nan ∧ classify p x ≠ .inf) ↔ x.e ≠ p.eOnes := by
  have hnan : isNan p x = (decide (x.e = p.eOnes) && decide (x.m ≠ 0)) := by
    unfold isNan
    cases hkind : p.kind with
    | ieee => rfl
    | e4m3 => exact absurd hkind hk
    | e5m2 => rfl
  unfold classify
  rw [hnan, Params.hasInf_of_kind hk]
  by_cases he : x.e = p.eOnes
  · by_cases hm : x.m = 0 <;> simp [he, hm]
  · simp only [he, decide_false, Bool.false_and, Bool.and_false, Bool.false_eq_true, if_false]
    split_ifs <;> simp [he]

theorem code_lt_infCode_iff (hx : x.Fits p.E p.F) : x.code p < p.infCode ↔ x.e < p.eOnes := by
  have hm := hx.2
  have hpos := Nat.two_pow_pos p.F
  rw [Enc.code, Params.infCode]
  constructor
  · intro hlt
    exact Nat.lt_of_mul_lt_mul_right (a := 2 ^ p.F) (by omega)
  · intro hlt
    have := Nat.mul_le_mul_right (2 ^ p.F) (Nat.succ_le_of_lt hlt)
    rw [Nat.succ_mul] at this
    omega

theorem finite_iff_code_le_maxfCode (h : p.legal = true) (hx : x.Fits p.E p.F) :
    (classify p x ≠ .nan ∧ classify p x ≠ .inf) ↔ x.code p ≤ p.maxfCode := by
  obtain ⟨he, hm⟩ := hx
  by_cases hk : p.kind = .e4m3
  · obtain rfl := Params.legal_e4m3 h hk
    change x.e < 16 at he
    change x.m < 8 at hm
    have hnan : isNan .e4m3 x = true ↔ x.e = 15 ∧ x.m = 7 := by
      change (decide (x.e = 15) && decide (x.m = 7)) = true ↔ _
      simp
    have hcode : x.code .e4m3 ≤ Params.e4m3.maxfCode ↔ ¬ (x.e = 15 ∧ x.m = 7) := by
      change x.e * 8 + x.m ≤ 126 ↔ _
      omega
    rw [hcode, ← hnan]
    unfold classify
    rw [show Params.e4m3.hasInf = false from rfl]
    split_ifs <;> simp_all
  · rw [finite_iff_e_ne_eOnes hk, ← Nat.lt_succ_iff, Nat.succ_eq_add_one, Params.maxfCode_succ h hk,
      code_lt_infCode_iff ⟨he, hm⟩]
    have := p.eOnes_succ
    omega

end

/-- Settles O23: in E4M3 only one code is no finite value, in the other kinds all those with an all-ones exponent field. -/
theorem finiteEncodingsEndAtTheLargestCode : Obligations.FiniteEncodingsEndAtTheLargestCode :=
  fun _ _ h hx => finite_iff_code_le_maxfCode h hx

end Machine
end Sys2Proof
end

section
/-! PROOF. ROUND of a representable operand, and that ROUND.RNE answers a nearest representable value (40_rounding.md
section 2, rules R74 and R80). -/

namespace Sys2Proof.Machine

/-! ## A representable operand -/

section
variable {p : Params} {a : Word} {c : Nat}

theorem f64Abs_of_isZero (ha : F64IsZero a) : f64Abs a = 0 := by simp [f64Abs, ha.1, ha.2]

theorem codeMagnitude_zero_val (p : Params) : (codeMagnitude p 0).val = 0 := by simp [codeMagnitude, Magnitude.val]

theorem IsF64Magnitude.val_pos {x : Magnitude} (hx : IsF64Magnitude x) : 0 < x.val := by
  have hsig := hx.pos
  unfold Magnitude.val
  positivity

/-- The range check accepts every finite value but zero. -/
theorem inRange_codeVal (h : p.legal = true) (h0 : c ≠ 0) (hc : c ≤ p.maxfCode) : InRange p (codeVal p c) := by
  have hmin : codeVal p p.smallestSubnormalCode ≤ codeVal p c := by
    rw [codeVal_of_finite h hc, codeVal_of_finite h (c := p.smallestSubnormalCode) ((Nat.pos_of_ne_zero h0).trans_le hc)]
    exact codeMagnitude_val_le_iff.mpr (Nat.pos_of_ne_zero h0)
  have hmax : codeVal p c ≤ codeVal p p.maxfCode := by
    rw [codeVal_of_finite h hc, codeVal_of_finite h le_rfl]
    exact codeMagnitude_val_le_iff.mpr hc
  obtain ⟨-, -, -, -, -, -, -, -, he4m3, he5m2⟩ := catalogCodesHaveTheirValues p h
  unfold InRange
  cases hk : p.kind with
  | ieee => trivial
  | e4m3 =>
    obtain ⟨hbig, hsmall⟩ := he4m3 hk
    exact ⟨hsmall ▸ hmin, hbig ▸ hmax⟩
  | e5m2 =>
    obtain ⟨hbig, hsmall⟩ := he5m2 hk
    exact ⟨hsmall ▸ hmin, hbig ▸ hmax⟩

/-- A value of the format is rounded to itself in both modes: the rounded code is bounded by its own code from both
sides. -/
theorem roundCore_of_representable (h : p.legal = true) (mode : RoundMode) (sat : Bool) (ha : f64Exp a ≠ 2047)
    (hc : c ≤ p.maxfCode) (hval : codeVal p c = f64Abs a) (hkeep : p.subAsZero = true → c = 0 ∨ 2 ^ p.F ≤ c) :
    roundCore p mode sat (decodeF64 a) = .ok (Enc.ofCode p (f64Sign a) c, 0) := by
  by_cases hz : F64IsZero a
  · rw [f64Abs_of_isZero hz, codeVal_of_finite h hc, ← codeMagnitude_zero_val p] at hval
    obtain rfl := (codeMagnitude_val_strictMono p).injective hval
    rw [decodeF64_of_isZero hz]
    rfl
  · obtain ⟨x, hd⟩ := exists_decodeF64_eq_finite ⟨ha, hz⟩
    have hx := isF64Magnitude_of_decodeF64 hd
    have hxval : (codeMagnitude p c).val = x.val := by rw [← codeVal_of_finite h hc, hval, val_eq_f64Abs hd]
    have h0 : c ≠ 0 := fun h0 => by
      have hpos := hx.val_pos
      rw [← hxval, h0, codeMagnitude_zero_val] at hpos
      exact lt_irrefl _ hpos
    have hcode : roundedCode p mode x = c :=
      le_antisymm (roundedCode_le_of_val_le h hx mode hxval.ge) (le_roundedCode_of_le_val h hx mode hxval.le)
    have hgrs : roundGrs p x = 0 := by
      rw [← quanta_eq_val_iff h hx mode, ← codeMagnitude_roundedCode_val h hx, hcode, hxval]
    have hr : Rounds p a := ⟨⟨ha, hz⟩, hval ▸ inRange_codeVal h h0 hc⟩
    rw [roundCore_of_rounds hr hd, hcode, hgrs, saturateFlush_of_kept hc fun hz => (hkeep hz).resolve_left h0]

end

/-- Settles O35: the rounded code is the operand's own and nothing is discarded. -/
theorem representableOperandIsKept : Obligations.RepresentableOperandIsKept :=
  fun mode sat _ _ h ha hc hval hkeep => exec_roundInstr_of_ok h (roundCore_of_representable h mode sat ha hc hval hkeep)

/-! ## Nearest, ties to even -/

section
variable {p : Params} {x : Magnitude}

/-- RNE increments above a half, and at a half where Q is odd (40_rounding.md rule R72). -/
theorem increment_rne_iff (p : Params) (x : Magnitude) : increment p .rne x = true ↔
    1 / 2 < discardedFraction p x ∨ (discardedFraction p x = 1 / 2 ∧ tentative p x % 2 = 1) := by
  have hnonneg := belowRound_nonneg p x
  have hlt := belowRound_lt p x
  have hpos := belowRound_pos_iff p x
  have hodd : (tentative p x).testBit 0 = true ↔ tentative p x % 2 = 1 := by simp [Nat.testBit_zero]
  unfold increment discardedFraction
  rw [← hodd]
  dsimp only
  cases guardBit x.sig (shiftAmount p x) with
  | false =>
    have hr : ((roundBit x.sig (shiftAmount p x)).toNat : ℚ) ≤ 1 := by exact_mod_cast Bool.toNat_le _
    refine iff_of_false (by simp) ?_
    rw [Bool.toNat_false, Nat.cast_zero]
    rintro (hgt | ⟨heq, -⟩) <;> linarith
  | true =>
    cases roundBit x.sig (shiftAmount p x) with
    | true =>
      refine iff_of_true (by simp) (.inl ?_)
      simp only [Bool.toNat_true, Nat.cast_one]
      linarith
    | false =>
      cases hs : stickyBit x.sig (shiftAmount p x) with
      | true => simpa using .inl (hpos.mpr hs)
      | false =>
        have hzero : belowRound p x = 0 := le_antisymm (not_lt.mp fun hgt => by simp [hs] at hpos; linarith) hnonneg
        simp [hzero]

/-- The fraction has at least one bit, so the code is even where Q and its increment are. -/
theorem roundedCode_mod_two (h : p.legal = true) (mode : RoundMode) (x : Magnitude) :
    roundedCode p mode x % 2 = (tentative p x + (increment p mode x).toNat) % 2 := by
  obtain ⟨F', hF'⟩ : ∃ F', p.F = F' + 1 := ⟨p.F - 1, by have := (p.legal_bounds h).2.2.1; omega⟩
  rw [roundedCode, hF', Nat.pow_succ, ← Nat.mul_assoc]
  omega

theorem codeMagnitude_trunc_val_eq (h : p.legal = true) (hx : IsF64Magnitude x) :
    (codeMagnitude p (roundedCode p .trunc x)).val = x.val - discardedFraction p x * 2 ^ quantumExponent p x := by
  rw [codeMagnitude_roundedCode_val h hx, val_eq_tentative_add h hx]
  simp only [increment_trunc, Bool.toNat_false, Nat.add_zero]
  ring

theorem codeMagnitude_trunc_succ_val_eq (h : p.legal = true) (hx : IsF64Magnitude x) :
    (codeMagnitude p (roundedCode p .trunc x + 1)).val =
      x.val + (1 - discardedFraction p x) * 2 ^ quantumExponent p x := by
  have hcode : roundedCode p .trunc x + 1 =
      (max (biasedExponent p x - 1) 0).toNat * 2 ^ p.F + (tentative p x + 1) := by
    simp [roundedCode, Nat.add_assoc]
  rw [hcode, codeMagnitude_quanta_val h hx le_rfl, val_eq_tentative_add h hx]
  push_cast
  ring

/-- A code up to the truncated one is as far from the operand as it lies below it. -/
theorem abs_sub_of_le_trunc (h : p.legal = true) (hx : IsF64Magnitude x) {c : Nat} (hc : c ≤ roundedCode p .trunc x) :
    |(codeMagnitude p c).val - x.val| = x.val - (codeMagnitude p c).val := by
  rw [abs_sub_comm]
  exact abs_of_nonneg (sub_nonneg.mpr ((codeMagnitude_val_le_iff.mpr hc).trans (codeMagnitude_roundedCode_trunc_le h hx)))

/-- A code beyond the truncated one is as far from the operand as it lies above it. -/
theorem abs_sub_of_trunc_lt (h : p.legal = true) (hx : IsF64Magnitude x) {c : Nat} (hc : roundedCode p .trunc x < c) :
    |(codeMagnitude p c).val - x.val| = (codeMagnitude p c).val - x.val :=
  abs_of_nonneg (sub_nonneg.mpr
    ((lt_codeMagnitude_roundedCode_trunc_succ h hx).le.trans (codeMagnitude_val_le_iff.mpr hc)))

/-- No code, finite or not, is nearer to the operand than the one RNE rounds to; if another one is as near, the rounded one
is even (40_rounding.md rule R80). -/
theorem roundedCode_rne_nearest (h : p.legal = true) (hx : IsF64Magnitude x) (c' : Nat) :
    |(codeMagnitude p (roundedCode p .rne x)).val - x.val| ≤ |(codeMagnitude p c').val - x.val| ∧
    (c' ≠ roundedCode p .rne x →
      |(codeMagnitude p (roundedCode p .rne x)).val - x.val| = |(codeMagnitude p c').val - x.val| →
      roundedCode p .rne x % 2 = 0) := by
  have hq : (0 : ℚ) < 2 ^ quantumExponent p x := by positivity
  have hbelow := codeMagnitude_trunc_val_eq h hx
  have habove := codeMagnitude_trunc_succ_val_eq h hx
  have hiff := increment_rne_iff p x
  rw [roundedCode_mod_two h, roundedCode_eq_trunc_add]
  cases hinc : increment p .rne x with
  | false =>
    rw [hinc, iff_false_left (by simp), not_or, not_lt, not_and] at hiff
    obtain ⟨hle, heven⟩ := hiff
    rw [Bool.toNat_false, Nat.add_zero, abs_sub_of_le_trunc h hx le_rfl]
    obtain hc' | hc' := (Nat.lt_or_ge (roundedCode p .trunc x) c').symm
    · have hval := codeMagnitude_val_le_iff (p := p).mpr hc'
      rw [abs_sub_of_le_trunc h hx hc']
      refine ⟨by linarith, fun hne heq => absurd ?_ hne⟩
      exact (codeMagnitude_val_strictMono p).injective (by linarith)
    · have hval := codeMagnitude_val_le_iff (p := p).mpr (Nat.succ_le_of_lt hc')
      rw [abs_sub_of_trunc_lt h hx hc']
      refine ⟨by nlinarith, fun _ heq => ?_⟩
      have hhalf : discardedFraction p x = 1 / 2 := le_antisymm hle (by nlinarith)
      have := heven hhalf
      omega
  | true =>
    rw [hinc, iff_true_left rfl] at hiff
    have hle := half_le_of_increment hinc
    rw [Bool.toNat_true, abs_sub_of_trunc_lt h hx (Nat.lt_succ_self _)]
    obtain hc' | hc' := (Nat.lt_or_ge (roundedCode p .trunc x) c').symm
    · have hval := codeMagnitude_val_le_iff (p := p).mpr hc'
      rw [abs_sub_of_le_trunc h hx hc']
      refine ⟨by nlinarith, fun _ heq => ?_⟩
      have hhalf : discardedFraction p x ≤ 1 / 2 := by nlinarith
      have hodd := (hiff.resolve_left (not_lt.mpr hhalf)).2
      omega
    · have hval := codeMagnitude_val_le_iff (p := p).mpr (Nat.succ_le_of_lt hc')
      rw [abs_sub_of_trunc_lt h hx hc']
      refine ⟨by linarith, fun hne heq => absurd ?_ hne⟩
      exact (codeMagnitude_val_strictMono p).injective (by linarith)

/-! ## Infinity from the midpoint on -/

/-- The bound of rule R74 of 40_rounding.md lies midway between the largest finite value and the value of infinity's code. -/
theorem overflow_midpoint_eq (h : p.legal = true) (hk : p.kind = .ieee) :
    (2 - 1 / 2 ^ (p.F + 1)) * 2 ^ p.maxExponent =
      ((codeMagnitude p p.maxfCode).val + (codeMagnitude p p.infCode).val) / 2 := by
  rw [← codeVal_of_finite h le_rfl, codeVal_maxfCode_ieee h hk, codeMagnitude_infCode_val h, zpow_add_one₀ two_ne_zero,
    Params.maxExponent, zpow_natCast]
  field_simp
  ring

theorem maxfCode_odd (h : p.legal = true) (hk : p.kind = .ieee) : p.maxfCode % 2 = 1 := by
  obtain ⟨F', hF'⟩ : ∃ F', p.F = F' + 1 := ⟨p.F - 1, by have := (p.legal_bounds h).2.2.1; omega⟩
  have hsucc := Params.maxfCode_succ h (by simp [hk])
  rw [Params.infCode, hF', Nat.pow_succ, ← Nat.mul_assoc] at hsucc
  omega

/-- At the midpoint the tie goes to infinity's code, because the largest finite one is odd. -/
theorem roundedCode_rne_le_maxfCode_iff (h : p.legal = true) (hk : p.kind = .ieee) (hx : IsF64Magnitude x) :
    roundedCode p .rne x ≤ p.maxfCode ↔ x.val < (2 - 1 / 2 ^ (p.F + 1)) * 2 ^ p.maxExponent := by
  have hsucc := Params.maxfCode_succ h (by simp [hk])
  have hlt : (codeMagnitude p p.maxfCode).val < (codeMagnitude p p.infCode).val :=
    codeMagnitude_val_lt_iff.mpr (by omega)
  rw [overflow_midpoint_eq h hk]
  constructor
  · intro hle
    by_contra hge
    rw [not_lt] at hge
    have heq : roundedCode p .rne x = p.maxfCode :=
      le_antisymm hle (le_roundedCode_of_le_val h hx .rne (by linarith))
    obtain ⟨hnear, htie⟩ := roundedCode_rne_nearest h hx p.infCode
    have hdist : |(codeMagnitude p p.infCode).val - x.val| ≤ |(codeMagnitude p p.maxfCode).val - x.val| := by
      rw [abs_sub_comm (codeMagnitude p p.maxfCode).val, abs_of_nonneg (a := x.val - _) (by linarith), abs_sub_le_iff]
      exact ⟨by linarith, by linarith⟩
    rw [heq] at hnear htie
    have := htie (by omega) (le_antisymm hnear hdist)
    have := maxfCode_odd h hk
    omega
  · intro hv
    by_contra hgt
    have hinf : (codeMagnitude p p.infCode).val ≤ (codeMagnitude p (roundedCode p .rne x)).val :=
      codeMagnitude_val_le_iff.mpr (by omega)
    have hmax : (codeMagnitude p p.maxfCode).val < x.val := by
      by_contra hle
      exact hgt (roundedCode_le_of_val_le h hx .rne (not_lt.mp hle))
    obtain ⟨hnear, -⟩ := roundedCode_rne_nearest h hx p.maxfCode
    rw [abs_of_nonneg (by linarith), abs_sub_comm, abs_of_nonneg (by linarith)] at hnear
    linarith

end

/-- Settles O33: the rounded code is nearest among all codes, and saturation leaves it alone up to the largest finite
one. -/
theorem rneGivesANearestValue : Obligations.RneGivesANearestValue := by
  intro sat s h hz hr
  obtain ⟨x, hd⟩ := exists_decodeF64_eq_finite hr.1
  have hx := isF64Magnitude_of_decodeF64 hd
  have hcore := roundCore_of_rounds (mode := .rne) (sat := sat) hr hd
  have hin := hr.2
  rw [← val_eq_f64Abs hd] at hin ⊢
  by_cases hmax : roundedCode s.params .rne x ≤ s.params.maxfCode
  · rw [saturateFlush_of_kept hmax fun hz' => by simp [hz] at hz'] at hcore
    refine ⟨_, _, exec_roundInstr_of_ok (mode := .rne) h hcore,
      .inl ⟨hmax, fun hk => (roundedCode_rne_le_maxfCode_iff h hk hx).mp hmax⟩, fun _ c' hc' => ?_⟩
    rw [codeVal_of_finite h hmax, codeVal_of_finite h hc']
    exact roundedCode_rne_nearest h hx c'
  · have hk : s.params.kind = .ieee := by
      by_contra hk
      exact hmax (roundedCode_le_maxfCode h hx .rne hk hin)
    have hinf : s.params.hasInf = true := Params.hasInf_of_kind (by simp [hk])
    rw [saturateFlush_of_overflow (Nat.lt_of_not_le hmax), hinf, if_pos rfl] at hcore
    have hsucc := Params.maxfCode_succ h (by simp [hk])
    exact ⟨_, _, exec_roundInstr_of_ok (mode := .rne) h hcore,
      .inr ⟨hk, rfl, not_lt.mp (mt (roundedCode_rne_le_maxfCode_iff h hk hx).mpr hmax)⟩, fun hle => by omega⟩

end Sys2Proof.Machine
end

section
/-! PROOF. TO_F64 of a finite value is exactly that value, and the round trips with ROUND (10_state.md rule R33,
40_rounding.md rules R82, R83, R87 and R88). -/

namespace Sys2Proof.Machine

theorem implicitFields_fits (p : Params) (v : Nat) : (implicitFields p v).Fits p.E p.F := unpack_fits _ _ _

theorem explicitFields_fits (p : Params) (v : Nat) : (explicitFields p v).Fits p.E p.M := unpack_fits _ _ _

/-! ## Binary64 words by sign and magnitude -/

theorem f64Word_fields (s : Bool) {de df : Nat} (hde : de < 2 ^ 11) (hdf : df < 2 ^ 52) :
    f64Sign (f64Word s de df) = s ∧ f64Exp (f64Word s de df) = de ∧ f64Frac (f64Word s de df) = df := by
  have hfits : Enc.Fits 11 52 { s := s, e := de, m := df } := ⟨hde, hdf⟩
  have hunpack := unpack_f64 (f64Word s de df)
  rw [f64Word, BitVec.toNat_ofNat, Nat.mod_eq_of_lt (pack_lt hfits), unpack_pack hfits, Enc.mk.injEq] at hunpack
  exact ⟨hunpack.1.symm, hunpack.2.1.symm, hunpack.2.2.symm⟩

/-- Binary64 is the implicit format (11, 52): rule R37 of 10_state.md is its rule R34. -/
theorem f64Abs_eq_valueImpl (a : Word) : f64Abs a = (valueImpl .fp64 (unpack 11 52 a.toNat)).val := by
  rw [unpack_f64, f64Abs, valueImpl]
  by_cases he : f64Exp a = 0
  · simp [he, Magnitude.val, Params.B, Params.F, Params.fp64]
  · have hexp : ((f64Exp a : ℤ) - Params.fp64.B - Params.fp64.F) = (f64Exp a : ℤ) - 1075 := by
      rw [show Params.fp64.B = 1023 from rfl, show Params.fp64.F = 52 from rfl]
      push_cast
      ring
    rw [if_neg he, if_neg he, hexp]
    rfl

theorem valueImpl_eq_codeMagnitude {p : Params} {x : Enc} (hx : x.Fits p.E p.F) :
    valueImpl p x = codeMagnitude p (x.code p) := by
  have hlt : x.code p < 2 ^ (p.E + p.F) := by
    obtain ⟨he, hm⟩ := hx
    calc x.e * 2 ^ p.F + x.m < (x.e + 1) * 2 ^ p.F := by rw [Nat.succ_mul]; omega
      _ ≤ 2 ^ (p.E + p.F) := by rw [Nat.pow_add]; exact Nat.mul_le_mul_right _ he
  rw [← valueImpl_ofCode hlt x.s, ofCode_code hx]

/-- A binary64 word is determined by its sign and its magnitude. -/
theorem eq_of_f64Sign_eq_of_f64Abs_eq {a b : Word} (hs : f64Sign a = f64Sign b) (habs : f64Abs a = f64Abs b) :
    a = b := by
  have hfits : ∀ c : Word, (unpack 11 52 c.toNat).Fits Params.fp64.E Params.fp64.F := fun c => unpack_fits 11 52 _
  rw [f64Abs_eq_valueImpl, f64Abs_eq_valueImpl, valueImpl_eq_codeMagnitude (hfits a),
    valueImpl_eq_codeMagnitude (hfits b)] at habs
  have hcode := (codeMagnitude_val_strictMono .fp64).injective habs
  have hsign : (unpack 11 52 a.toNat).s = (unpack 11 52 b.toNat).s := by rw [unpack_f64, unpack_f64]; exact hs
  have henc : unpack 11 52 a.toNat = unpack 11 52 b.toNat := by
    rw [← ofCode_code (hfits a), ← ofCode_code (hfits b), hcode, hsign]
  refine BitVec.eq_of_toNat_eq ?_
  rw [← pack_unpack (ew := 11) (mw := 52) a.isLt, ← pack_unpack (ew := 11) (mw := 52) b.isLt, henc]

theorem f64IsZero_iff_f64Abs_eq_zero (a : Word) : F64IsZero a ↔ f64Abs a = 0 := by
  refine ⟨f64Abs_of_isZero, fun h => ?_⟩
  unfold f64Abs at h
  split_ifs at h with he
  · exact ⟨he, by simpa using h⟩
  · have hpos : (0 : ℚ) < ((2 ^ 52 + f64Frac a : ℕ) : ℚ) * 2 ^ ((f64Exp a : ℤ) - 1075) := by positivity
    exact absurd h hpos.ne'

/-- The word is the finite binary64 number with this sign and magnitude. -/
structure IsF64Of (y : Word) (s : Bool) (v : ℚ) : Prop where
  finite : f64Exp y ≠ 2047
  sign : f64Sign y = s
  abs : f64Abs y = v

theorem isF64Of_normal (s : Bool) {de df : Nat} (h1 : 1 ≤ de) (hde : de < 2047) (hdf : df < 2 ^ 52) :
    IsF64Of (f64Word s de df) s (Magnitude.val { sig := 2 ^ 52 + df, exp := (de : ℤ) - 1075 }) := by
  obtain ⟨hs, he, hf⟩ := f64Word_fields s (hde.trans (by decide)) hdf
  exact ⟨by omega, hs, by rw [f64Abs, he, hf, if_neg (by omega)]; rfl⟩

theorem isF64Of_subnormal (s : Bool) {df : Nat} (hdf : df < 2 ^ 52) :
    IsF64Of (f64Word s 0 df) s (Magnitude.val { sig := df, exp := -1074 }) := by
  obtain ⟨hs, he, hf⟩ := f64Word_fields s (de := 0) (by decide) hdf
  exact ⟨by omega, hs, by rw [f64Abs, he, hf, if_pos rfl]; rfl⟩

/-! ## Classes and codes -/

section
variable {p : Params} {x : Enc}

theorem e_eq_eOnes_of_isNan (hn : isNan p x = true) : x.e = p.eOnes := by
  unfold isNan at hn
  split at hn <;> exact of_decide_eq_true (Bool.and_eq_true_iff.mp hn).1

theorem of_classify_inf (hc : classify p x = .inf) : p.hasInf = true ∧ x.e = p.eOnes ∧ x.m = 0 := by
  unfold classify at hc
  split_ifs at hc with _ hinf
  simpa [and_assoc] using hinf

/-- Exponent field 0 is never all ones, so its class is that of the fraction (10_state.md rule R33). -/
theorem classify_of_e_eq_zero (h : p.legal = true) (he : x.e = 0) :
    classify p x = if x.m = 0 then .zero else .subnormal := by
  have hones : x.e ≠ p.eOnes := by have := Params.eOnes_ge h; omega
  have hnan : ¬ isNan p x = true := fun hn => hones (e_eq_eOnes_of_isNan hn)
  rw [classify, if_neg hnan, if_neg (by simp [hones]), if_pos he]

theorem classify_zero_iff (h : p.legal = true) : classify p x = .zero ↔ x.e = 0 ∧ x.m = 0 := by
  constructor
  · intro hc
    unfold classify at hc
    split_ifs at hc with _ _ he hm
    exact ⟨he, hm⟩
  · rintro ⟨he, hm⟩
    rw [classify_of_e_eq_zero h he, if_pos hm]

theorem classify_subnormal_iff (h : p.legal = true) : classify p x = .subnormal ↔ x.e = 0 ∧ x.m ≠ 0 := by
  constructor
  · intro hc
    unfold classify at hc
    split_ifs at hc with _ _ he hm
    exact ⟨he, hm⟩
  · rintro ⟨he, hm⟩
    rw [classify_of_e_eq_zero h he, if_neg hm]

/-- The subnormal codes lie between zero and the smallest normal. -/
theorem classify_ne_subnormal_iff (h : p.legal = true) (hx : x.Fits p.E p.F) :
    classify p x ≠ .subnormal ↔ x.code p = 0 ∨ 2 ^ p.F ≤ x.code p := by
  have hm := hx.2
  rw [Ne, classify_subnormal_iff h, Enc.code]
  by_cases he : x.e = 0
  · simp only [he, Nat.zero_mul, Nat.zero_add, true_and]
    omega
  · have hge : 1 * 2 ^ p.F ≤ x.e * 2 ^ p.F := Nat.mul_le_mul_right _ (Nat.pos_of_ne_zero he)
    refine iff_of_true (fun hsub => he hsub.1) (.inr (by omega))

/-- A subnormal lies between zero and the smallest normal. -/
theorem val_of_subnormal (h : p.legal = true) (hx : x.Fits p.E p.F) (hc : classify p x = .subnormal) :
    0 < (valueImpl p x).val ∧ (valueImpl p x).val < 2 ^ p.minExponent := by
  obtain ⟨he, hm⟩ := (classify_subnormal_iff h).mp hc
  have hm0 : (0 : ℚ) < x.m := by exact_mod_cast Nat.pos_of_ne_zero hm
  have hmF : (x.m : ℚ) < 2 ^ p.F := by exact_mod_cast hx.2
  rw [valueImpl, if_pos he, Magnitude.val]
  refine ⟨by positivity, ?_⟩
  calc (x.m : ℚ) * 2 ^ (1 - (p.B : ℤ) - p.F) < 2 ^ p.F * 2 ^ (1 - (p.B : ℤ) - p.F) := by gcongr
    _ = 2 ^ p.minExponent := by
      rw [← zpow_natCast, ← zpow_add₀ two_ne_zero, Params.minExponent]
      congr 1
      ring

theorem valueImpl_val_eq_zero_iff (x : Enc) : (valueImpl p x).val = 0 ↔ x.e = 0 ∧ x.m = 0 := by
  have hexp : ∀ k : ℤ, (2 : ℚ) ^ k ≠ 0 := fun k => by positivity
  unfold valueImpl
  split_ifs with he
  · simp [Magnitude.val, he, hexp]
  · have hsig : ((2 ^ p.F + x.m : ℕ) : ℚ) ≠ 0 :=
      Nat.cast_ne_zero.mpr (Nat.add_pos_left (Nat.two_pow_pos p.F) x.m).ne'
    exact iff_of_false (mul_ne_zero hsig (hexp _)) (fun hz => he hz.1)

theorem codeVal_code (hx : x.Fits p.E p.F) : codeVal p (x.code p) = (valueImpl p x).val := by
  have hfits : ({ x with s := false } : Enc).Fits p.E p.F := hx
  rw [codeVal, show x.code p = ({ x with s := false } : Enc).code p from rfl, ofCode_code (x := { x with s := false }) hfits]
  rfl

/-! ## The construction of rule R83 -/

/-- The exponent field of a finite value stays below the all-ones field of binary64. -/
theorem f64_exponent_lt (h : p.legal = true) (hx : x.Fits p.E p.F) (hfin : x.code p ≤ p.maxfCode) :
    x.e + 1023 - p.B < 2047 := by
  have hB := Params.B_le h
  by_cases hk : p.kind = .e4m3
  · obtain rfl := Params.legal_e4m3 h hk
    have he : x.e < 16 := hx.1
    have : Params.e4m3.B = 7 := rfl
    omega
  · have hlt := (finite_iff_e_ne_eOnes hk x).mp ((finite_iff_code_le_maxfCode h hx).mpr hfin)
    have hones := p.eOnes_succ
    have he := hx.1
    rw [Params.eOnes_eq h] at hlt hones
    omega

/-- A subnormal significand with its leading one moved to place 52. -/
theorem two_pow_52_add_shift {m n : Nat} (hn : n ≤ 52) (hm : 2 ^ n ≤ m) :
    2 ^ 52 + (m - 2 ^ n) <<< (52 - n) = m * 2 ^ (52 - n) := by
  have hpow : 2 ^ 52 = 2 ^ n * 2 ^ (52 - n) := by rw [← Nat.pow_add]; congr 1; omega
  rw [Nat.shiftLeft_eq, hpow, ← Nat.add_mul, Nat.add_sub_cancel' hm]

theorem shiftLeft_lt_two_pow {m n d k : Nat} (hm : m < 2 ^ n) (hk : n + d ≤ k) : m <<< d < 2 ^ k :=
  (Nat.shiftLeft_lt hm).trans_le (Nat.pow_le_pow_right (by decide) hk)

theorem f64Encode_normal_exact (h : p.legal = true) (hx : x.Fits p.E p.F) (hfin : x.code p ≤ p.maxfCode)
    (he : x.e ≠ 0) : IsF64Of (f64Encode p x) x.s (valueImpl p x).val := by
  have hB := Params.B_le h
  obtain ⟨-, -, -, hF⟩ := p.legal_bounds h
  have hsig : 2 ^ 52 + x.m <<< (52 - p.F) = (2 ^ p.F + x.m) * 2 ^ (52 - p.F) := by
    rw [Nat.shiftLeft_eq, Nat.add_mul, ← Nat.pow_add, Nat.add_sub_cancel' hF]
  have hexp : ((x.e + 1023 - p.B : ℕ) : ℤ) - 1075 + (52 - p.F : ℕ) = x.e - p.B - p.F := by omega
  have hy := isF64Of_normal x.s (by omega) (f64_exponent_lt h hx hfin)
    (shiftLeft_lt_two_pow hx.2 (d := 52 - p.F) (by omega))
  rw [hsig, Magnitude.val_mul_two_pow, hexp] at hy
  rw [f64Encode, if_pos he, valueImpl, if_neg he]
  exact hy

/-- A subnormal of the format is a normal binary64 number, or in the widest formats a subnormal one. -/
theorem f64Encode_subnormal_exact (h : p.legal = true) (hx : x.Fits p.E p.F) (he : x.e = 0) (hm : x.m ≠ 0) :
    IsF64Of (f64Encode p x) x.s (valueImpl p x).val := by
  have hB := Params.B_le h
  obtain ⟨-, -, -, hF⟩ := p.legal_bounds h
  obtain ⟨n, hn⟩ : ∃ n, bitlen x.m = n + 1 := ⟨_, bitlen_of_pos (Nat.pos_of_ne_zero hm)⟩
  have hge : 2 ^ n ≤ x.m := by simpa [hn] using two_pow_bitlen_le (Nat.pos_of_ne_zero hm)
  have hlt : x.m < 2 ^ (n + 1) := hn ▸ lt_two_pow_bitlen x.m
  have hnF : n < p.F := by have := bitlen_le_iff.mpr hx.2; omega
  rw [f64Encode, if_neg (not_not.mpr he), if_neg hm, valueImpl, if_pos he, hn, Nat.add_sub_cancel]
  dsimp only
  split_ifs with hlead
  · have hfrac : x.m - 2 ^ n < 2 ^ n := by rw [Nat.pow_succ] at hlt; omega
    have hexp : ((((n : ℤ) + 1 - p.B - p.F + 1023).toNat : ℤ) - 1075) + (52 - n : ℕ) = 1 - p.B - p.F := by omega
    have hy := isF64Of_normal x.s (de := ((n : ℤ) + 1 - p.B - p.F + 1023).toNat) (by omega) (by omega)
      (shiftLeft_lt_two_pow hfrac (d := 52 - n) (by omega))
    rwa [two_pow_52_add_shift (by omega) hge, Magnitude.val_mul_two_pow, hexp] at hy
  · have hexp : (-1074 : ℤ) + (1075 - p.B - p.F : ℕ) = 1 - p.B - p.F := by omega
    have hy := isF64Of_subnormal x.s (shiftLeft_lt_two_pow hlt (d := 1075 - p.B - p.F) (by omega))
    rwa [Nat.shiftLeft_eq, Magnitude.val_mul_two_pow, hexp, ← Nat.shiftLeft_eq] at hy

/-- Rule R83 of 40_rounding.md is exact: in each of its cases the significand moves left by as many places as the exponent
goes down. -/
theorem f64Encode_exact (h : p.legal = true) (hx : x.Fits p.E p.F) (hfin : x.code p ≤ p.maxfCode) :
    IsF64Of (f64Encode p x) x.s (valueImpl p x).val := by
  by_cases he : x.e = 0
  · by_cases hm : x.m = 0
    · rw [f64Encode, if_neg (not_not.mpr he), if_pos hm, (valueImpl_val_eq_zero_iff x).mpr ⟨he, hm⟩]
      simpa [Magnitude.val] using isF64Of_subnormal x.s (df := 0) (by decide)
    · exact f64Encode_subnormal_exact h hx he hm
  · exact f64Encode_normal_exact h hx hfin he

/-- TO_F64 of a finite value that it does not flush is exactly that value (40_rounding.md rule R82). -/
theorem toF64Word_exact (h : p.legal = true) (hx : x.Fits p.E p.F) (hfin : x.code p ≤ p.maxfCode)
    (hkeep : classify p x = .subnormal → p.subAsZero = false) :
    IsF64Of (toF64Word p x) x.s (valueImpl p x).val := by
  have hexact := f64Encode_exact h hx hfin
  obtain ⟨hnan, hinf⟩ := (finite_iff_code_le_maxfCode h hx).mpr hfin
  unfold toF64Word
  cases hc : classify p x with
  | nan => exact absurd hc hnan
  | inf => exact absurd hc hinf
  | zero => exact hexact
  | subnormal => simpa [hkeep hc] using hexact
  | normal => exact hexact

end

/-- Settles O40: the operand of an implicit instance is the value that rule R83 constructs. -/
theorem toF64IsExact : Obligations.ToF64IsExact := by
  rintro s x h hj rfl hfin hkeep
  obtain ⟨hexp, hsign, habs⟩ := toF64Word_exact h (implicitFields_fits _ _) hfin hkeep
  exact ⟨_, by rw [exec_toF64 h, toF64Source_of_implicit h hj], hexp, hsign, habs⟩

/-- Settles O44: no other class than zero, and a flushed subnormal, gives a word of magnitude 0. -/
theorem countsAsZeroExactlyIfToF64GivesZero : Obligations.CountsAsZeroExactlyIfToF64GivesZero := by
  intro p x h hx
  have hfinite : classify p x ≠ .nan → classify p x ≠ .inf → (classify p x = .subnormal → p.subAsZero = false) →
      (F64IsZero (toF64Word p x) ↔ x.e = 0 ∧ x.m = 0) := fun hnan hinf hkeep => by
    rw [f64IsZero_iff_f64Abs_eq_zero,
      (toF64Word_exact h hx ((finite_iff_code_le_maxfCode h hx).mp ⟨hnan, hinf⟩) hkeep).abs, valueImpl_val_eq_zero_iff]
  unfold countsAsZero
  cases hc : classify p x with
  | nan => exact iff_of_false Bool.false_ne_true (by rw [toF64Word_of_nan hc]; decide)
  | inf => exact iff_of_false Bool.false_ne_true (by rw [toF64Word_of_inf hc]; cases x.s <;> decide)
  | zero => simpa [hfinite, hc] using (classify_zero_iff h).mp hc
  | subnormal =>
    cases hz : p.subAsZero with
    | true => rw [toF64Word_of_flushed hz hc]; cases x.s <;> decide
    | false => simp [hfinite, hc, hz, ((classify_subnormal_iff h).mp hc).2]
  | normal =>
    have hzero : ¬ (x.e = 0 ∧ x.m = 0) := fun hz => by simp [(classify_zero_iff h).mpr hz] at hc
    simpa [hfinite, hc] using hzero

/-! ## Through J_DROP -/

section
variable {p : Params} {x : Enc}

theorem jRemove_e_ne_eOnes (h : p.legal = true) (hj : p.explicitJ = true) (hx : x.Fits p.E p.M) (he : x.e ≠ p.eOnes) :
    (jRemove p x).e ≠ p.eOnes := by
  rw [jRemove_of_finite he]
  exact canonForm_e_ne_eOnes h hj hx he

theorem jRemove_finite (h : p.legal = true) (hj : p.explicitJ = true) (hx : x.Fits p.E p.M) (he : x.e ≠ p.eOnes) :
    classify p (jRemove p x) ≠ .nan ∧ classify p (jRemove p x) ≠ .inf :=
  (finite_iff_e_ne_eOnes (by simp [Params.ieee_of_explicitJ h hj]) _).mpr (jRemove_e_ne_eOnes h hj hx he)

/-- An explicit operand is flushed only where it is not zero and below the smallest normal (40_rounding.md rule R87). -/
theorem jRemove_kept (h : p.legal = true) (hj : p.explicitJ = true) (hx : x.Fits p.E p.M) (he : x.e ≠ p.eOnes)
    (hkeep : p.subAsZero = true → x.m = 0 ∨ (2 : ℚ) ^ p.minExponent ≤ (valueExpl p x).val)
    (hc : classify p (jRemove p x) = .subnormal) : p.subAsZero = false := by
  obtain ⟨hpos, hlt⟩ := val_of_subnormal h (jRemove_fits h hx) hc
  rw [jRemove_val h hj hx he] at hpos hlt
  by_contra hz
  obtain hm | hge := hkeep (Bool.not_eq_false _ ▸ hz)
  · simp [valueExpl, hm, Magnitude.val] at hpos
  · exact absurd hlt (not_lt.mpr hge)

end

/-- Settles O41: J_DROP keeps sign and value, and TO_F64 of its result is exact. -/
theorem toF64IsExactInAnExplicitInstance : Obligations.ToF64IsExactInAnExplicitInstance := by
  rintro s x h hj rfl he hkeep
  have hx := explicitFields_fits s.params (operandW s.params 1 s.a)
  have hr := jRemove_fits h hx
  obtain ⟨hexp, hsign, habs⟩ := toF64Word_exact h hr
    ((finite_iff_code_le_maxfCode h hr).mp (jRemove_finite h hj hx he)) (jRemove_kept h hj hx he hkeep)
  rw [jRemove_s h hj hx he] at hsign
  rw [jRemove_val h hj hx he] at habs
  exact ⟨_, by rw [exec_toF64 h, toF64Source_of_explicit hj], hexp, hsign, habs⟩

/-! ## Round trips -/

section
variable {p : Params}

/-- A result of at most 64 bits is the operand that the next request reads. -/
theorem operandW_resultWord (hW : p.W ≤ 64) {v : Nat} (hv : v < 2 ^ p.W) (op : Code3) :
    operandW p op (resultWord v) = v := by
  have h64 : v < 2 ^ 64 := hv.trans_le (Nat.pow_le_pow_right (by decide) hW)
  rw [operandW, if_pos hW, slice_zero_lo, resultWord, BitVec.toNat_ofNat, Nat.mod_eq_of_lt h64, Nat.mod_eq_of_lt hv]

/-- What TO_F64 converts when it is given the result of ROUND. -/
theorem toF64Source_formatWord (h : p.legal = true) (hW : p.W ≤ 64) {r : Enc} (hr : r.Fits p.E p.F) (op : Code3) :
    toF64Source p (operandW p op (formatWord p r)) = r := by
  cases hj : p.explicitJ with
  | true =>
    have hfits := jInsert_fits h hj hr
    rw [formatWord, if_pos hj, explicitWord, operandW_resultWord hW (pack_lt hfits), toF64Source_of_explicit hj,
      explicitFields, unpack_pack hfits, jRemove_jInsert h hj hr]
  | false =>
    have hpack : pack p.E p.F r < 2 ^ p.W := by
      rw [Params.W, ← Params.F_of_implicit hj]
      exact pack_lt hr
    rw [formatWord, if_neg (by simp [hj]), implicitWord, operandW_resultWord hW hpack, toF64Source, if_neg (by simp [hj]),
      implicitFields, unpack_pack hr]

/-- TO_F64 of the encoding of a binary64 word's magnitude is that word. -/
theorem toF64Word_of_representable (h : p.legal = true) {a : Word} {c : Nat} (hc : c ≤ p.maxfCode)
    (hval : codeVal p c = f64Abs a) (hkeep : p.subAsZero = true → c = 0 ∨ 2 ^ p.F ≤ c) :
    toF64Word p (Enc.ofCode p (f64Sign a) c) = a := by
  have hr := ofCode_fits p (f64Sign a) c
  have hlt := hc.trans_lt (Params.maxfCode_lt h)
  have hcode : (Enc.ofCode p (f64Sign a) c).code p = c := code_ofCode hlt
  have hsub : classify p (Enc.ofCode p (f64Sign a) c) = .subnormal → p.subAsZero = false := fun hsub => by
    by_contra hz
    exact (classify_ne_subnormal_iff h hr).mpr (hcode.symm ▸ hkeep (Bool.not_eq_false _ ▸ hz)) hsub
  obtain ⟨-, hsign, habs⟩ := toF64Word_exact h hr (hcode.symm ▸ hc) hsub
  refine eq_of_f64Sign_eq_of_f64Abs_eq hsign (habs.trans ?_)
  rw [← codeVal_code hr, hcode, hval]

/-- ROUND of the binary64 word of an encoding is the encoding again, in both modes, with grs = 000. -/
theorem roundCore_toF64Word (h : p.legal = true) (mode : RoundMode) (sat : Bool) {x : Enc} (hx : x.Fits p.E p.F)
    (hnan : classify p x ≠ .nan) (hkeep : classify p x = .subnormal → p.subAsZero = false) :
    roundCore p mode sat (decodeF64 (toF64Word p x)) = .ok (x, 0) := by
  by_cases hinf : classify p x = .inf
  · obtain ⟨hi, he, hm⟩ := of_classify_inf hinf
    have hd : decodeF64 (toF64Word p x) = .inf x.s := by
      rw [toF64Word_of_inf hinf]
      cases x.s <;> rfl
    have hxeq : Enc.ofCode p x.s p.infCode = x := by rw [ofCode_infCode, ← he, ← hm]
    simp [hd, roundCore, hi, hxeq]
  · have hfin := (finite_iff_code_le_maxfCode h hx).mp ⟨hnan, hinf⟩
    obtain ⟨hexp, hsign, habs⟩ := toF64Word_exact h hx hfin hkeep
    have hnormal : p.subAsZero = true → x.code p = 0 ∨ 2 ^ p.F ≤ x.code p := fun hz =>
      (classify_ne_subnormal_iff h hx).mp fun hsub => by simp [hkeep hsub] at hz
    rw [roundCore_of_representable h mode sat hexp hfin ((codeVal_code hx).trans habs.symm) hnormal, hsign,
      ofCode_code hx]

/-- ROUND of a word that the host presents after another request. -/
theorem exec_roundInstr_present {s : State} {c : Ctl} {a : Word} {mode : RoundMode} {sat : Bool} {r : Enc} {g : Code3}
    (h : s.params.legal = true) (hcore : roundCore s.params mode sat (decodeF64 a) = .ok (r, g)) :
    exec (roundInstr mode sat) (s.present { ctl := c, a := a }) =
      .next ((s.present { ctl := c, a := a }).respond (formatWord s.params r) g) := by
  rw [exec_roundInstr_of_ok (r := r) (g := g) (by simpa using h) (by simpa using hcore), State.present_params]

end

/-- Settles O45: ROUND keeps the value, and sign and magnitude determine the binary64 word. -/
theorem binaryWordRoundTrips : Obligations.BinaryWordRoundTrips := by
  intro s mode sat c h ha hc hval hkeep
  have hr := ofCode_fits s.params (f64Sign s.a) c
  have hcore := roundCore_of_representable h mode sat ha hc hval hkeep
  have hback := toF64Word_of_representable h hc hval hkeep
  refine ⟨⟨_, exec_roundInstr_of_ok h hcore, rfl, rfl, fun hW => ?_⟩, _, hcore, hback, fun hj => ?_⟩
  · rw [exec_toF64 (by simpa using h)]
    simp only [State.present_params, State.respond_params, State.present_a, State.respond_y,
      toF64Source_formatWord h hW hr, hback]
  · rw [jRemove_jInsert h hj hr, hback]

/-- Settles O46: TO_F64 of an implicit operand is exact, so ROUND.RNE gives its fields again. -/
theorem implicitEncodingRoundTrips : Obligations.ImplicitEncodingRoundTrips := by
  rintro s sat x h hj rfl hnan hkeep
  refine ⟨_, exec_toF64 h, ?_⟩
  rw [toF64Source_of_implicit h hj]
  have hcore := roundCore_toF64Word h .rne sat (implicitFields_fits _ _) hnan hkeep
  have hword : formatWord s.params (implicitFields s.params (slice s.a.toNat 0 s.params.W)) =
      BitVec.ofNat 64 (slice s.a.toNat 0 s.params.W) := by
    have hlt : slice s.a.toNat 0 s.params.W < 2 ^ (1 + s.params.E + s.params.F) := by
      rw [Params.F_of_implicit hj]
      exact slice_lt _ _ _
    rw [formatWord, if_neg (by simp [hj]), implicitWord, resultWord, implicitFields, pack_unpack hlt]
  rw [← hword]
  exact exec_roundInstr_present (mode := .rne) h hcore

section
variable {p : Params} {x : Enc}

theorem finite_or_inf_of_ne_nan (hnan : classifyExplicit p x ≠ .nan) :
    x.e ≠ p.eOnes ∨ classifyExplicit p x = .inf := by
  by_cases he : x.e = p.eOnes
  · refine .inr ?_
    unfold classifyExplicit at hnan ⊢
    rw [if_pos he] at hnan ⊢
    split_ifs at hnan ⊢
    · rfl
    · exact absurd rfl hnan
  · exact .inl he

theorem jInsert_jRemove_of_ne_nan (h : p.legal = true) (hj : p.explicitJ = true) (hx : x.Fits p.E p.M)
    (hnan : classifyExplicit p x ≠ .nan) : jInsert p (jRemove p x) = canonForm p x := by
  obtain he | hinf := finite_or_inf_of_ne_nan hnan
  · exact jInsert_jRemove h hj hx he
  · obtain ⟨he, hm⟩ := of_classifyExplicit_inf hinf
    rw [canonForm_of_eOnes he, jRemove_of_inf hinf, jInsert_of_no_jBit (.inr rfl), ← he, ← hm]

/-- ROUND of TO_F64 of an explicit encoding is its implicit encoding, whose J bit makes it the canonical form. -/
theorem roundCore_toF64Word_jRemove (h : p.legal = true) (hj : p.explicitJ = true) (mode : RoundMode) (sat : Bool)
    (hx : x.Fits p.E p.M) (hnan : classifyExplicit p x ≠ .nan)
    (hkeep : p.subAsZero = true → x.e = p.eOnes ∨ x.m = 0 ∨ (2 : ℚ) ^ p.minExponent ≤ (valueExpl p x).val) :
    roundCore p mode sat (decodeF64 (toF64Word p (jRemove p x))) = .ok (jRemove p x, 0) := by
  have hr := jRemove_fits h hx
  obtain he | hinf := finite_or_inf_of_ne_nan hnan
  · exact roundCore_toF64Word h mode sat hr (jRemove_finite h hj hx he).1
      (jRemove_kept h hj hx he fun hz => (hkeep hz).resolve_left he)
  · have hc : classify p (jRemove p x) = .inf := by
      rw [jRemove_of_inf hinf]
      exact classify_ieee_inf (Params.ieee_of_explicitJ h hj) rfl rfl
    exact roundCore_toF64Word h mode sat hr (by simp [hc]) (by simp [hc])

end

/-- Settles O47: both halves of the trip go through the implicit encoding that J_DROP gives, and inserting its J bit gives
the canonical form. -/
theorem explicitEncodingRoundTripsToCanon : Obligations.ExplicitEncodingRoundTripsToCanon := by
  refine ⟨?_, fun p sat x h hj hx hnan hkeep => ⟨_, roundCore_toF64Word_jRemove h hj .rne sat hx hnan hkeep,
    jInsert_jRemove_of_ne_nan h hj hx hnan⟩⟩
  rintro s sat x h hj rfl hnan hkeep
  have hx := explicitFields_fits s.params (operandW s.params 1 s.a)
  have hcore := roundCore_toF64Word_jRemove h hj .rne sat hx hnan hkeep
  refine ⟨_, exec_toF64 h, ?_, fun hW => ?_⟩
  · rw [toF64Source_of_explicit hj]
    have hword : formatWord s.params (jRemove s.params (explicitFields s.params (operandW s.params 1 s.a))) =
        explicitWord s.params (canonForm s.params (explicitFields s.params (operandW s.params 1 s.a))) := by
      rw [formatWord, if_pos hj, jInsert_jRemove_of_ne_nan h hj hx hnan]
    rw [← hword]
    exact exec_roundInstr_present (mode := .rne) h hcore
  · rw [exec_canon h hj]
    simp only [operandW, hW, if_true]

end Sys2Proof.Machine
end

section
/-! PROOF. CANON and J_DROP on the ports (41_jbit_adapter.md rules R90 and R95), and what the ports show after every answer:
the invariant PortsConform. -/

namespace Sys2Proof.Machine

/-! ## CANON and J_DROP -/

/-- Settles O48: CANON answers `canon` of its operand. -/
theorem canonAnswersTheCanonicalForm : Obligations.CanonAnswersTheCanonicalForm := by
  rintro s x h hj rfl
  have hx := explicitFields_fits s.params (operandW s.params 2 s.a)
  exact ⟨_, exec_canon h hj, canonForm_fits h hx, canonForm_s h hj hx, canonForm_of_eOnes, fun he =>
    ⟨canonForm_e_ne_eOnes h hj hx he, canonForm_canonicalJ h hj hx he, canonForm_val h hj hx he⟩⟩

section
variable {p : Params} {x : Enc}

/-- A NaN keeps its sign and its fraction, where it has one (41_jbit_adapter.md rule R95). -/
theorem jRemove_of_fraction (he : x.e = p.eOnes) (hf : x.m % 2 ^ p.F ≠ 0) :
    jRemove p x = { s := x.s, e := p.eOnes, m := x.m % 2 ^ p.F } := by
  have hm : x.m ≠ 0 := fun hm => hf (by rw [hm, Nat.zero_mod])
  rw [jRemove, if_pos he, if_neg hm, slice_zero_lo, if_pos hf]

/-- A NaN that is a lone J bit becomes the canonical NaN. -/
theorem jRemove_of_lone_jBit (h : p.legal = true) (hj : p.explicitJ = true) (he : x.e = p.eOnes) (hm : x.m = 2 ^ p.F) :
    jRemove p x = { s := false, e := p.eOnes, m := 1 } := by
  have hm0 : x.m ≠ 0 := by have := Nat.two_pow_pos p.F; omega
  rw [jRemove, if_pos he, if_neg hm0, slice_zero_lo, hm, Nat.mod_self, if_neg (not_not.mpr rfl),
    ofCode_nanCode h (by simp [Params.ieee_of_explicitJ h hj])]

end

/-- Settles O51: the four branches of `j_drop`. -/
theorem jDropRemovesTheJBit : Obligations.JDropRemovesTheJBit := by
  rintro s x h hj rfl
  have hx := explicitFields_fits s.params (operandW s.params 4 s.a)
  refine ⟨_, exec_jDrop h hj, jRemove_fits h hx, fun he hm => ?_, jRemove_of_fraction, jRemove_of_lone_jBit h hj,
    fun he => ⟨jRemove_s h hj hx he, jRemove_e_ne_eOnes h hj hx he, jRemove_val h hj hx he⟩⟩
  rw [jRemove, if_pos he, if_pos hm]

/-! ## What each result shows -/

/-- The clauses of `PortsConform` that speak of `y`, as a property of the result of a request. -/
structure ResultConforms (p : Params) (c : Ctl) (y : Word) : Prop where
  width : y.toNat < 2 ^ resultWidth p c
  canonical : p.explicitJ = true → opField c ≠ 1 → opField c ≠ 4 →
    (explicitFields p y.toNat).e ≠ p.eOnes → CanonicalJ p (explicitFields p y.toNat)
  flushed : p.subAsZero = true → opField c = 0 → (unpack p.E p.M y.toNat).e = 0 → (unpack p.E p.M y.toNat).m = 0
  oneNan : opField c = 1 → F64IsNan y → y = 0x7FF0000000000001

section
variable {p : Params} {c : Ctl}

theorem unpack_zero (ew mw : Nat) : unpack ew mw 0 = { s := false, e := 0, m := 0 } := by simp [unpack, slice]

/-- The result of an error response (60_exceptions.md rule R100). -/
theorem resultConforms_zero (p : Params) (c : Ctl) : ResultConforms p c 0 where
  width := Nat.two_pow_pos _
  canonical _ _ _ _ := by simp [explicitFields, unpack_zero, CanonicalJ, jBit]
  flushed _ _ _ := by simp [unpack_zero]
  oneNan _ hn := absurd hn (by decide)

theorem toNat_resultWord_lt {v n : Nat} (hv : v < 2 ^ n) : (resultWord v).toNat < 2 ^ n :=
  (Nat.mod_le _ _).trans_lt hv

/-- Exponent field and mantissa of a W-bit result stand on `y`; with W = 65 only the sign has no wire (assumption 4). -/
theorem unpack_resultWord (h : p.legal = true) {q : Enc} (hq : q.Fits p.E p.M) :
    (unpack p.E p.M (resultWord (pack p.E p.M q)).toNat).e = q.e ∧
    (unpack p.E p.M (resultWord (pack p.E p.M q)).toNat).m = q.m := by
  have hEM : p.E + p.M ≤ 64 := by
    have hF := p.F_eq_sub
    have hJ := Bool.toNat_le p.explicitJ
    obtain ⟨-, hE, -, hF52⟩ := p.legal_bounds h
    omega
  obtain ⟨he, hm, -⟩ := unpack_resultWord_pack hEM hq
  exact ⟨he, hm⟩

/-- A W-bit result: in the explicit format it has to be canonical, and after a flushing ROUND no subnormal. -/
theorem resultConforms_packed (h : p.legal = true) {q : Enc} (hq : q.Fits p.E p.M) (h1 : opField c ≠ 1)
    (h4 : opField c ≠ 4) (hcan : p.explicitJ = true → q.e ≠ p.eOnes → CanonicalJ p q)
    (hflush : p.subAsZero = true → opField c = 0 → q.e = 0 → q.m = 0) :
    ResultConforms p c (resultWord (pack p.E p.M q)) := by
  obtain ⟨he, hm⟩ := unpack_resultWord h hq
  refine ⟨?_, fun hj _ _ hones => ?_, fun hz hop hzero => ?_, fun hop => absurd hop h1⟩
  · rw [resultWidth, if_neg h1, if_neg h4]
    exact toNat_resultWord_lt (pack_lt hq)
  · rw [explicitFields, he] at hones
    rw [explicitFields, CanonicalJ, jBit, he, hm]
    exact hcan hj hones
  · rw [he] at hzero
    rw [hm]
    exact hflush hz hop hzero

/-- With SUB_AS_ZERO = 1 no answer of `round_core` is subnormal (40_rounding.md rule R75). -/
theorem roundCore_ne_subnormal (h : p.legal = true) (hk : p.kind = .ieee) (hz : p.subAsZero = true) {mode : RoundMode}
    {sat : Bool} {d : F64} {r : Enc} {g : Code3} (hcore : roundCore p mode sat d = .ok (r, g)) :
    classify p r ≠ .subnormal := by
  have hinf : p.hasInf = true := Params.hasInf_of_kind (by simp [hk])
  have hinfCode : ∀ sgn, classify p (Enc.ofCode p sgn p.infCode) ≠ .subnormal := fun sgn => by
    rw [ofCode_infCode, classify_ieee_inf hk rfl rfl]
    decide
  have hzeroCode : ∀ sgn, classify p (Enc.ofCode p sgn 0) ≠ .subnormal := fun sgn => by
    rw [ofCode_zero, (classify_zero_iff h).mpr ⟨rfl, rfl⟩]
    decide
  cases d with
  | nan =>
    cases hcore
    rw [ofCode_nanCode h (by simp [hk]), classify_ieee_nan hk rfl one_ne_zero]
    decide
  | zero sgn =>
    cases hcore
    exact hzeroCode sgn
  | inf sgn =>
    rw [roundCore, if_pos hinf] at hcore
    cases hcore
    exact hinfCode sgn
  | finite sgn x =>
    rw [roundCore, outOfRange_ieee hk, if_neg Bool.false_ne_true] at hcore
    cases hcore
    by_cases hmax : p.maxfCode < roundedCode p mode x
    · rw [saturateFlush_of_overflow hmax, if_pos hinf]
      exact hinfCode sgn
    by_cases hlt : roundedCode p mode x < 2 ^ p.F
    · rw [saturateFlush_of_flush h hz hlt]
      exact hzeroCode sgn
    · have hle := Nat.not_lt.mp hmax
      rw [saturateFlush_of_kept hle fun _ => Nat.not_lt.mp hlt, classify_ne_subnormal_iff h (ofCode_fits _ _ _),
        code_ofCode (hle.trans_lt (Params.maxfCode_lt h))]
      exact .inr (Nat.not_lt.mp hlt)

theorem resultConforms_round (h : p.legal = true) (hop : opField c = 0) {mode : RoundMode} {sat : Bool} {d : F64}
    {r : Enc} {g : Code3} (hcore : roundCore p mode sat d = .ok (r, g)) : ResultConforms p c (formatWord p r) := by
  have hr := roundCore_fits hcore
  have hflush : p.subAsZero = true → r.e = 0 → r.m = 0 := fun hz he => by
    have hsub := roundCore_ne_subnormal h (Params.ieee_of_subAsZero h hz) hz hcore
    rw [Ne, classify_subnormal_iff h, not_and_not_right] at hsub
    exact hsub he
  have h1 : opField c ≠ 1 := by rw [hop]; decide
  have h4 : opField c ≠ 4 := by rw [hop]; decide
  unfold formatWord
  cases hj : p.explicitJ with
  | true =>
    rw [if_pos rfl]
    refine resultConforms_packed h (jInsert_fits h hj hr) h1 h4 (fun _ he => jInsert_canonicalJ h hj hr he)
      fun hz _ he => ?_
    have he0 : r.e = 0 := he
    rw [jInsert_of_no_jBit (.inl he0)]
    exact hflush hz he0
  | false =>
    rw [if_neg Bool.false_ne_true, implicitWord, Params.F_of_implicit hj]
    rw [Params.F_of_implicit hj] at hr
    exact resultConforms_packed h hr h1 h4 (by simp [hj]) fun hz _ he => hflush hz he

theorem toF64Source_fits (h : p.legal = true) (v : Nat) : (toF64Source p v).Fits p.E p.F := by
  cases hj : p.explicitJ with
  | true =>
    rw [toF64Source_of_explicit hj]
    exact jRemove_fits h (explicitFields_fits p v)
  | false =>
    rw [toF64Source, if_neg (by simp [hj])]
    exact implicitFields_fits p v

/-- Every NaN that TO_F64 gives is the canonical one (40_rounding.md rule R84). -/
theorem toF64Word_eq_of_isNan (h : p.legal = true) {x : Enc} (hx : x.Fits p.E p.F) (hn : F64IsNan (toF64Word p x)) :
    toF64Word p x = 0x7FF0000000000001 := by
  by_cases hnan : classify p x = .nan
  · exact toF64Word_of_nan hnan
  exfalso
  by_cases hinf : classify p x = .inf
  · rw [toF64Word_of_inf hinf] at hn
    refine absurd hn ?_
    cases x.s <;> decide
  by_cases hflush : classify p x = .subnormal ∧ p.subAsZero = true
  · rw [toF64Word_of_flushed hflush.2 hflush.1] at hn
    refine absurd hn ?_
    cases x.s <;> decide
  · exact (toF64Word_exact h hx ((finite_iff_code_le_maxfCode h hx).mp ⟨hnan, hinf⟩) fun hc =>
      Bool.eq_false_iff.mpr fun hz => hflush ⟨hc, hz⟩).finite hn.1

theorem resultConforms_toF64 (h : p.legal = true) (hop : opField c = 1) {x : Enc} (hx : x.Fits p.E p.F) :
    ResultConforms p c (toF64Word p x) where
  width := by
    rw [resultWidth, if_pos hop]
    exact (toF64Word p x).isLt
  canonical _ h1 := absurd hop h1
  flushed _ h0 := absurd (hop.symm.trans h0) (by decide)
  oneNan _ := toF64Word_eq_of_isNan h hx

theorem resultConforms_jDrop (hop : opField c = 4) {r : Enc} (hr : r.Fits p.E p.F) :
    ResultConforms p c (implicitWord p r) where
  width := by
    rw [resultWidth, if_neg (by rw [hop]; decide), if_pos hop]
    exact toNat_resultWord_lt (pack_lt hr)
  canonical _ _ h4 := absurd hop h4
  flushed _ h0 := absurd (hop.symm.trans h0) (by decide)
  oneNan h1 := absurd (hop.symm.trans h1) (by decide)

end

/-! ## The invariant -/

section
variable {s t : State}

/-- In an explicit instance each adapter operation answers a result of its own format. -/
theorem step_adapter_conforms (h : s.params.legal = true) (hj : s.params.explicitJ = true)
    (hop : opField s.ctl = 2 ∨ opField s.ctl = 3 ∨ opField s.ctl = 4) :
    ∃ y, step s = .next (s.respond y 0) ∧ ResultConforms s.params s.ctl y := by
  obtain hop | hop | hop := hop
  · have hd : decode s.ctl = .instr .canon := by simp [decode, hop]
    have hx := explicitFields_fits s.params (operandW s.params 2 s.a)
    refine ⟨_, (step_of_instr hd).trans (exec_canon h hj), resultConforms_packed h (canonForm_fits h hx)
      (by rw [hop]; decide) (by rw [hop]; decide) (fun _ he => canonForm_canonicalJ h hj hx fun hx1 => he ?_)
      fun _ h0 => absurd (hop.symm.trans h0) (by decide)⟩
    rw [canonForm_of_eOnes hx1, hx1]
  · have hd : decode s.ctl = .instr .jExpand := by simp [decode, hop]
    have hr := implicitFields_fits s.params (operandWI s.params s.a)
    exact ⟨_, (step_of_instr hd).trans (exec_jExpand h hj), resultConforms_packed h (jInsert_fits h hj hr)
      (by rw [hop]; decide) (by rw [hop]; decide) (fun _ he => jInsert_canonicalJ h hj hr he)
      fun _ h0 => absurd (hop.symm.trans h0) (by decide)⟩
  · have hd : decode s.ctl = .instr .jDrop := by simp [decode, hop]
    have hx := explicitFields_fits s.params (operandW s.params 4 s.a)
    exact ⟨_, (step_of_instr hd).trans (exec_jDrop h hj), resultConforms_jDrop hop (jRemove_fits h hx)⟩

/-- What every answer drives on `y` and `grs`, by the class of its `op` field. -/
theorem step_conforms (h : s.params.legal = true) :
    ∃ t, step s = .next t ∧ ResultConforms s.params s.ctl t.y ∧ (opField s.ctl ≠ 0 → t.grs = 0) := by
  have hraise : ∀ e, step s = .next (s.raise e) →
      ∃ t, step s = .next t ∧ ResultConforms s.params s.ctl t.y ∧ (opField s.ctl ≠ 0 → t.grs = 0) :=
    fun e he => ⟨_, he, resultConforms_zero _ _, fun _ => rfl⟩
  obtain hop | hop | hop | hop := op_cases (opField s.ctl)
  · by_cases hrm : rmField s.ctl = 0 ∨ rmField s.ctl = 1
    · obtain ⟨mode, hd⟩ := decode_of_asksRound ⟨hop, hrm⟩
      cases hcore : roundCore s.params mode (satField s.ctl) (decodeF64 s.a) with
      | ok v => exact ⟨_, (step_of_instr hd).trans (exec_roundInstr_of_ok h hcore), resultConforms_round h hop hcore,
          fun h0 => absurd hop h0⟩
      | error e => exact hraise e ((step_of_instr hd).trans (exec_roundInstr_of_error h hcore))
    · exact hraise _ (step_of_isCausedBy (e := .unsupportedRm) h ⟨hop, not_or.mp hrm⟩)
  · have hd : decode s.ctl = .instr .toF64 := by simp [decode, hop]
    exact ⟨_, (step_of_instr hd).trans (exec_toF64 h), resultConforms_toF64 h hop (toF64Source_fits h _), fun _ => rfl⟩
  · cases hj : s.params.explicitJ with
    | true =>
      obtain ⟨y, hy, hconf⟩ := step_adapter_conforms h hj hop
      exact ⟨_, hy, hconf, fun _ => rfl⟩
    | false => exact hraise _ (step_of_isCausedBy (e := .illegalOp) h (raisesIllegalOp_iff.mpr (.inr ⟨hj, hop⟩)))
  · exact hraise _ (step_of_isCausedBy (e := .illegalOp) h (raisesIllegalOp_iff.mpr (.inl hop)))

/-- Whatever the ports showed before, after an answer they conform. -/
theorem portsConform_of_step (ht : step s = .next t) : PortsConform t := by
  have h := legal_of_step ht
  obtain ⟨t', ht', hconf, hgrs⟩ := step_conforms h
  obtain rfl : t = t' := Host.Outcome.next.inj (ht.symm.trans ht')
  have hp := params_of_step ht
  have hc := ctl_of_step ht
  rw [← hp, ← hc] at hconf
  rw [← hc] at hgrs
  exact {
    legal := hp ▸ h
    settled := settled_of_step ht
    errCode := err_le_four ht
    errOfKind := by
      rw [hp]
      refine ⟨fun herr => ?_, fun herr hk => ?_⟩
      · obtain ⟨-, -, hk, -⟩ := (err_eq_code_iff ht .infUnsupported).mp herr
        exact hk
      · obtain ⟨-, -, hout⟩ := (err_eq_code_iff ht .rangeExceeded).mp herr
        exact hout (by simp [InRange, hk])
    errNoResult := errorResponseCarriesNoResult s t ht
    grsOfRound := hgrs
    resultWidth := hconf.width
    canonical := hconf.canonical
    flushed := hconf.flushed
    oneNan := hconf.oneNan }

theorem portsConform_settle (h : s.params.legal = true) : PortsConform s.settle := by
  obtain ⟨t, ht⟩ := exists_step h
  rw [settle_of_step ht]
  exact portsConform_of_step ht

end

/-- Settles O19: after a step, and after every change of the request, the outputs are those of an answer. -/
theorem stepKeepsPortsConforming : Obligations.StepKeepsPortsConforming :=
  fun _ h => ⟨fun _ ht => portsConform_of_step ht, fun _ => portsConform_settle h, fun _ _ => portsConform_settle h⟩

/-- Settles O18: the reset state is the answer to its own request. -/
theorem resetPortsConform : Obligations.ResetPortsConform := portsConform_of_step resetAnswersItsRequest

end Sys2Proof.Machine
end

section
/-! PROOF. The textual form of a request reads back (30_encoding.md rule R60), in the model's grammar (assumption 6). -/

namespace Sys2Proof.Machine

/-! ## Words of a line -/

/-- A character that neither ends a word nor is a word of its own. -/
def IsWordChar (c : Char) : Prop := c ≠ ' ' ∧ c ≠ ','

theorem forall_isWordChar_of_all {w : List Char} (h : (w.all fun c => c != ' ' && c != ',') = true) :
    ∀ c ∈ w, IsWordChar c := by simpa [IsWordChar] using h

/-- A word of such characters goes in front of what the scan has read after it. -/
theorem foldr_scanChar_word {w : List Char} (hw : ∀ c ∈ w, IsWordChar c) (acc : List Char × List (List Char)) :
    w.foldr scanChar acc = (w ++ acc.1, acc.2) := by
  induction w with
  | nil => rfl
  | cons c w ih =>
    obtain ⟨hc, hw⟩ := List.forall_mem_cons.mp hw
    rw [List.foldr_cons, ih hw, scanChar, if_neg hc.1, if_neg hc.2]
    rfl

theorem flushWord_of_ne_nil {w : List Char} (hw : w ≠ []) (ws : List (List Char)) : flushWord w ws = w :: ws :=
  if_neg hw

/-- A space after a word ends it. -/
theorem lineWords_word_space {w rest : List Char} (hw : ∀ c ∈ w, IsWordChar c) (hne : w ≠ []) :
    lineWords (w ++ ' ' :: rest) = w :: lineWords rest := by
  simp only [lineWords, List.foldr_append, List.foldr_cons, foldr_scanChar_word hw]
  simp [scanChar, flushWord_of_ne_nil hne]

/-- A comma after a word ends it and is the next word. -/
theorem lineWords_word_comma {w rest : List Char} (hw : ∀ c ∈ w, IsWordChar c) (hne : w ≠ []) :
    lineWords (w ++ ',' :: rest) = w :: [','] :: lineWords rest := by
  simp only [lineWords, List.foldr_append, List.foldr_cons, foldr_scanChar_word hw]
  simp [scanChar, flushWord_of_ne_nil hne]

theorem lineWords_space (rest : List Char) : lineWords (' ' :: rest) = lineWords rest := by
  simp [lineWords, scanChar, flushWord]

theorem lineWords_word {w : List Char} (hw : ∀ c ∈ w, IsWordChar c) (hne : w ≠ []) : lineWords w = [w] := by
  simp [lineWords, foldr_scanChar_word hw, flushWord_of_ne_nil hne]

/-! ## Hexadecimal literals -/

theorem hexDigit_mod (n : Nat) : hexDigit (n % 16) = hexDigit n := by simp only [hexDigit, Nat.mod_mod]

theorem digitValue_hexDigit (n : Nat) : digitValue 16 (hexDigit n) = some (n % 16) := by
  have hdigit : ∀ k < 16, digitValue 16 (hexDigit k) = some k := by decide
  rw [← hexDigit_mod, hdigit _ (Nat.mod_lt _ (by decide))]

theorem isWordChar_hexDigit (n : Nat) : IsWordChar (hexDigit n) := by
  have hdigit : ∀ k < 16, hexDigit k ≠ ' ' ∧ hexDigit k ≠ ',' := by decide
  rw [← hexDigit_mod]
  exact hdigit _ (Nat.mod_lt _ (by decide))

theorem isWordChar_of_mem_hexDigits {width n : Nat} : ∀ c ∈ hexDigits width n, IsWordChar c := by
  induction width generalizing n with
  | zero => exact nofun
  | succ k ih =>
    intro c hc
    obtain hc | hc := List.mem_append.mp hc
    · exact ih c hc
    · exact List.mem_singleton.mp hc ▸ isWordChar_hexDigit n

theorem digitsFrom_append_hexDigit {base acc v : Nat} {ds : List Char} {c : Char} (hc : digitValue base c = some v) :
    digitsFrom base acc (ds ++ [c]) = (digitsFrom base acc ds).map fun n => n * base + v := by
  induction ds generalizing acc with
  | nil => simp [digitsFrom, hc]
  | cons d ds ih =>
    rw [List.cons_append, digitsFrom, digitsFrom]
    cases digitValue base d with
    | none => rfl
    | some u => exact ih

/-- Written digits are read as the number they are the last digits of. -/
theorem digitsFrom_hexDigits (width n : Nat) : digitsFrom 16 0 (hexDigits width n) = some (n % 16 ^ width) := by
  induction width generalizing n with
  | zero => simp [hexDigits, digitsFrom, Nat.mod_one]
  | succ k ih =>
    have hdiv : n / 16 % 16 ^ k * 16 + n % 16 = n % 16 ^ (k + 1) := by
      rw [Nat.pow_succ', Nat.mod_mul]
      ring
    rw [hexDigits, digitsFrom_append_hexDigit (digitValue_hexDigit n), ih, Option.map_some, hdiv]

/-- The literal `0x` with the digits of a number that fits the field is that number. -/
theorem hexLiteral_hexDigits {bits width n : Nat} (hpos : width ≠ 0) (hbits : n < 2 ^ bits) (hwidth : n < 16 ^ width) :
    hexLiteral bits ('0' :: 'x' :: hexDigits width n) = some n := by
  have hne : hexDigits width n ≠ [] := by
    cases width with
    | zero => exact absurd rfl hpos
    | succ k => simp [hexDigits]
  simp [hexLiteral, digitsNumber, hne, digitsFrom_hexDigits, Nat.mod_eq_of_lt hwidth, hbits]

theorem isWordChar_of_mem_literal {width n : Nat} : ∀ c ∈ '0' :: 'x' :: hexDigits width n, IsWordChar c := by
  intro c hc
  obtain rfl | hc := List.mem_cons.mp hc
  · exact ⟨by decide, by decide⟩
  obtain rfl | hc := List.mem_cons.mp hc
  · exact ⟨by decide, by decide⟩
  · exact isWordChar_of_mem_hexDigits c hc

/-! ## Operations and raw requests -/

/-- Each name of rule R60 is one word and is read as its operation. -/
theorem instrName_reads (i : Instr) :
    mnemonicInstr (instrName i) = some i ∧ instrName i ≠ [] ∧ ∀ c ∈ instrName i, IsWordChar c := by
  refine And.imp_right (And.imp_right forall_isWordChar_of_all) ?_
  cases i with
  | roundRne sat => revert sat; decide
  | roundTrunc sat => revert sat; decide
  | toF64 => decide
  | canon => decide
  | jExpand => decide
  | jDrop => decide

theorem assemble_instrText (i : Instr) (a : Word) : assemble (instrText i a) = some { ctl := encode i, a := a } := by
  obtain ⟨hname, hne, hchars⟩ := instrName_reads i
  have hlit : hexLiteral 64 ('0' :: 'x' :: hexDigits 16 a.toNat) = some a.toNat :=
    hexLiteral_hexDigits (by decide) a.isLt a.isLt
  have hwords : lineWords (instrText i a) = [instrName i, '0' :: 'x' :: hexDigits 16 a.toNat] := by
    have htext : instrText i a = instrName i ++ ' ' :: '0' :: 'x' :: hexDigits 16 a.toNat := by
      have hhead : " 0x".toList = [' ', '0', 'x'] := rfl
      unfold instrText
      simp only [hhead, List.append_assoc, List.cons_append, List.nil_append]
    rw [htext, lineWords_word_space hchars hne, lineWords_word isWordChar_of_mem_literal (List.cons_ne_nil _ _)]
  have hoperand : operandLiteral i ('0' :: 'x' :: hexDigits 16 a.toNat) = some a := by
    rw [operandLiteral, hlit]
    simp
  rw [assemble, hwords]
  simp only [hname, hoperand, Option.map_some]

/-- A line of the raw form is the request with its two literals. -/
theorem assemble_of_raw_words {line name ctl operand : List Char} {c a : Nat}
    (hwords : lineWords line = [name, ctl, [','], operand]) (hname : name = ".req".toList)
    (hctl : hexLiteral 7 ctl = some c) (hop : hexLiteral 64 operand = some a) :
    assemble line = some { ctl := BitVec.ofNat 7 c, a := BitVec.ofNat 64 a } := by
  rw [assemble, hwords]
  simp only [hctl, hop]
  exact if_pos hname

theorem assemble_requestText (rq : Request) : assemble (requestText rq) = some rq := by
  have hctl : hexLiteral 7 ('0' :: 'x' :: hexDigits 2 rq.ctl.toNat) = some rq.ctl.toNat :=
    hexLiteral_hexDigits (by decide) rq.ctl.isLt (rq.ctl.isLt.trans (by decide))
  have hop : hexLiteral 64 ('0' :: 'x' :: hexDigits 16 rq.a.toNat) = some rq.a.toNat :=
    hexLiteral_hexDigits (by decide) rq.a.isLt rq.a.isLt
  have hreq : ∀ c ∈ ['.', 'r', 'e', 'q'], IsWordChar c := forall_isWordChar_of_all (by decide)
  have hwords : lineWords (requestText rq) = [['.', 'r', 'e', 'q'], '0' :: 'x' :: hexDigits 2 rq.ctl.toNat, [','],
      '0' :: 'x' :: hexDigits 16 rq.a.toNat] := by
    have htext : requestText rq = ['.', 'r', 'e', 'q'] ++ ' ' :: (('0' :: 'x' :: hexDigits 2 rq.ctl.toNat) ++
        ',' :: ' ' :: '0' :: 'x' :: hexDigits 16 rq.a.toNat) := by
      have hhead : ".req 0x".toList = ['.', 'r', 'e', 'q', ' ', '0', 'x'] := rfl
      have hmiddle : ", 0x".toList = [',', ' ', '0', 'x'] := rfl
      unfold requestText
      simp only [hhead, hmiddle, List.append_assoc, List.cons_append, List.nil_append]
    rw [htext, lineWords_word_space hreq (by decide),
      lineWords_word_comma isWordChar_of_mem_literal (List.cons_ne_nil _ _), lineWords_space,
      lineWords_word isWordChar_of_mem_literal (List.cons_ne_nil _ _)]
  rw [assemble_of_raw_words hwords rfl hctl hop, BitVec.ofNat_toNat, BitVec.ofNat_toNat, BitVec.setWidth_eq,
    BitVec.setWidth_eq]

end Sys2Proof.Machine

namespace Sys2Proof
open Machine

/-- Settles O3: the text is cut into the words it was put together from, and each word is read back. -/
theorem requestTextReadsBack : Obligations.RequestTextReadsBack :=
  ⟨fun i a => ⟨_, assemble_instrText i a, decodeInvertsEncode i, rfl⟩, assemble_requestText⟩

end Sys2Proof
end
